-- ==== Sys2Proof/Word.lean ====
section
/-! DEFINITION. The word types of the block: table entries and interval registers are 32 bits
(spec/00_scope.md R4, W = 32), symbols and output bytes 8 bits, command words 16 bits (R4, CMDW = 16).
The arithmetic on them is in Sys2Proof/Machine/Ops.lean. -/

namespace Sys2Proof

/-- LOW, RANGE and every table entry: unsigned 32 bits (R4, R11, R12, R13). -/
abbrev Word := BitVec 32

/-- A symbol, an ARG field or an output byte (R14, R46). -/
abbrev Byte := BitVec 8

/-- A command word, handed to the block whole (R45). -/
abbrev CmdWord := BitVec 16

/-- TBL: 257 entries of 32 bits, indices 0..256 (R13, R31). An index outside 0..256 does not exist in the
type (spec/93_implementation_defined.md U3). -/
abbrev Table := Vector Word 257

end Sys2Proof
end

