-- ==== Sys2Proof/Syntax.lean ====
section
/-! DEFINITION. The command set RC-CMD version 1: one constructor per row of spec/opcode_table.json
(spec/30_encoding.md R47). The micro-operations have no encoding and are no instructions (R54). -/

namespace Sys2Proof

/-- The commands of the block. -/
inductive Instr where
  /-- START, word 0x0100 (R85): opens a call. -/
  | start
  /-- SYM b, word 0x0200 + b (R86): codes one input byte; every value of `b` is legal (R46). -/
  | sym (b : Byte)
  /-- FINISH, word 0x0300 (R87): ends the call. -/
  | finish
  deriving DecidableEq, Repr

/-- The expansion of the pseudo-instruction COMPRESS b0, ..., b(n-1): START, the SYMs, FINISH (R53). -/
def compressExpansion (x : List Byte) : List Instr :=
  .start :: (x.map Instr.sym ++ [.finish])

end Sys2Proof
end

