-- ==== Sys2Proof/WellFormed.lean ====
section
/-! DEFINITION. Which instructions and which command streams are well formed. The one operand of the command set is
a byte and every byte is legal (spec/30_encoding.md R46), so the type already refuses every operand the
encoding has no room for and an instruction by itself has no further check; the check that can fail is the one on
STREAMS: from IDLE, exactly the concatenations of calls START, SYM*, FINISH are well formed (spec/44_commands.md R89). -/

namespace Sys2Proof

/-- A command's operands fit its encoding. Always true: START and FINISH have no operand, SYM's operand is a byte
(R46). -/
def Instr.wellFormed (i : Instr) : Bool :=
  match i with
  | .start => true
  | .sym _ => true
  | .finish => true

/-- Is this stream, taken up inside an open call (`true`) or outside one (`false`), the rest of a concatenation of
calls START, SYM*, FINISH (R89)? A stream that ends inside a call is an unfinished one (R91) and is refused. -/
def streamFrom : Bool → List Instr → Bool
  | inCall, [] => !inCall
  | false, .start :: is => streamFrom true is
  | true, .sym _ :: is => streamFrom true is
  | true, .finish :: is => streamFrom false is
  | true, .start :: _ => false
  | false, .sym _ :: _ => false
  | false, .finish :: _ => false

/-- The well-formed command streams from IDLE (R89). -/
def streamWellFormed (is : List Instr) : Bool :=
  streamFrom false is

end Sys2Proof
end

