-- ==== Sys2Proof/Decode.lean ====
section
/-! DEFINITION. The decoder, the encoder and the opcode table of spec/30_encoding.md (R45 to R51). A command word is
one indivisible 16-bit word, never split into bytes, so there is no byte order to undo (R45, R35). Decoding is
total on 16-bit words and reads nothing but the word (R51). -/

namespace Sys2Proof

/-- Why a word is no command. -/
inductive DecodeError where
  /-- The word matches no row of the opcode table (R49): executing it raises IllegalCommand (R98). -/
  | illegal (w : CmdWord)
  deriving DecidableEq, Repr

/-- OPC = bits 15:8 of a command word (R45). -/
def opcOf (w : CmdWord) : Byte :=
  w.extractLsb' 8 8

/-- ARG = bits 7:0 of a command word (R45). -/
def argOf (w : CmdWord) : Byte :=
  w.extractLsb' 0 8

/-- The command a word stands for, or the reason it is none (R51). -/
def decode (w : CmdWord) : Except DecodeError Instr :=
  if w = 0x0100 then .ok .start
  else if opcOf w = 0x02 then .ok (.sym (argOf w))
  else if w = 0x0300 then .ok .finish
  else .error (.illegal w)

/-- Does the word match a row of the opcode table (R47)? -/
def isLegal (w : CmdWord) : Bool :=
  match decode w with
  | .ok _ => true
  | .error _ => false

/-- One row of the opcode table: a word selects it when `(w AND mask) = match` (R47). -/
structure OpcodeRow where
  mnemonic : String
  mask : CmdWord
  pattern : CmdWord
  deriving DecidableEq, Repr

/-- The rows of R47 and spec/opcode_table.json. -/
def opcodeTable : List OpcodeRow :=
  [⟨"START", 0xFFFF, 0x0100⟩, ⟨"SYM", 0xFF00, 0x0200⟩, ⟨"FINISH", 0xFFFF, 0x0300⟩]

/-- A word selects a row (R47). -/
def rowMatches (r : OpcodeRow) (w : CmdWord) : Bool :=
  w &&& r.mask == r.pattern

/-- The mnemonic of a command, as the opcode table spells it. -/
def mnemonicOf (i : Instr) : String :=
  match i with
  | .start => "START"
  | .sym _ => "SYM"
  | .finish => "FINISH"

/-- The word of a command: OPC in bits 15:8, ARG in bits 7:0 (R45, R47). -/
def encode (i : Instr) : CmdWord :=
  match i with
  | .start => (0x01 : Byte) ++ (0x00 : Byte)
  | .sym b => (0x02 : Byte) ++ b
  | .finish => (0x03 : Byte) ++ (0x00 : Byte)

/-- The command word whose low `nbits` bits are those of `w` and whose other bits are 0, numbered as
spec/opcode_table.json numbers them (log entry 16). -/
def tableWord (nbits w : Nat) : CmdWord :=
  BitVec.ofNat 16 (w % 2 ^ nbits)

/-- The command the decoder reads from an opcode-table word of `nbits` bits; a number too large for one command word
is no command (log entry 16). -/
def decodeTableWord (nbits w : Nat) : Option Instr :=
  if w % 2 ^ nbits < 65536 then (decode (tableWord nbits w)).toOption else none

end Sys2Proof
end

