-- ==== Sys2Proof/Config.lean ====
section
/-! DEFINITION. The parameters of spec/00_scope.md R4, each at the value R4 gives, and the free values of the
registers whose value after a hardware reset the spec leaves unspecified (R28, R111). -/

namespace Sys2Proof

/-- BOTTOM = 2^16: renormalize while RANGE <= BOTTOM (R4, R73). UNVERIFIED literal of the source, see log entry 12. -/
def Config.bottom : Word := 65536

/-- RESCALE_LIMIT = 2^23: rescale when T[256] exceeds it after an update (R4, R58). UNVERIFIED literal of the
source, see log entry 12. -/
def Config.rescaleLimit : Word := 8388608

/-- RANGE_INIT (R4, R65). -/
def Config.rangeInit : Word := 0xFFFFFFFF

/-- LOW_INIT (R4, R65, decision D8 of the spec). UNVERIFIED, see log entry 12. -/
def Config.lowInit : Word := 0

/-- What the n-th hardware reset leaves in LOW: a free value, no number is chosen (R28, R111; DESIGN CHOICE, log
entry 3, safe). -/
opaque Config.unspecifiedLow : Nat → Word

/-- What the n-th hardware reset leaves in RANGE: a free value (R28, R111; DESIGN CHOICE, log entry 3, safe). -/
opaque Config.unspecifiedRange : Nat → Word

/-- What the n-th hardware reset leaves in the 257 entries of TBL: a free value (R28, R111; DESIGN CHOICE, log
entry 3, safe). -/
opaque Config.unspecifiedTbl : Nat → Table

end Sys2Proof
end

