-- ==== Sys2Proof/Machine/State.lean ====
section
/-! DEFINITION. The state of one instance of the block, Block (spec/10_state.md R10: LOW, RANGE, TBL, OUT, PHASE, ERR, DONE
and no other), the state of a run of it, State, which puts the run's own two items beside the block (the command
stream, a parameter of the run, log entry 1; the index of the free values, log entry 4), the outcomes' reasons, and
the state after reset (R28). -/

namespace Sys2Proof.Machine

/-- PHASE, the sequencing state (R15). Its 2-bit codes are in Machine/Flags.lean. -/
inductive Phase where
  /-- 0 IDLE: no call is open. -/
  | idle
  /-- 1 OPEN: a START has been executed and no SYM since. -/
  | opened
  /-- 2 CODING: at least one SYM has been executed since the START. -/
  | coding
  /-- 3 FAULT: a fault has been recorded; every command is ignored until hardware reset. -/
  | fault
  deriving DecidableEq, Repr

/-- ERR, the error code of the last call or of the fault (R16). Its 2-bit codes are in Machine/Flags.lean. -/
inductive ErrCode where
  /-- 0 NONE. -/
  | noError
  /-- 1 EMPTY_INPUT. -/
  | emptyInput
  /-- 2 ILLEGAL_COMMAND. -/
  | illegalCommand
  /-- 3 BAD_SEQUENCE. -/
  | badSequence
  deriving DecidableEq, Repr

/-- The three synchronous error causes (R96). -/
inductive ErrorCause where
  /-- The call error of FINISH in phase OPEN (R97). -/
  | emptyInput
  /-- The fault of a word that matches no row of the opcode table (R98). -/
  | illegalCommand
  /-- The fault of a legal command in a phase that does not accept it (R99). -/
  | badSequence
  deriving DecidableEq, Repr

/-- What the host does to the block: it issues a command word or applies the hardware reset (R114, R52). -/
inductive HostEvent where
  /-- The host presents a 16-bit command word (R43). -/
  | word (w : CmdWord)
  /-- The host applies the hardware reset event, which has no encoding (R111). -/
  | reset
  deriving DecidableEq, Repr

/-- The architectural state of one instance of the block: the seven items of R10 and no other. -/
structure Block where
  /-- LOW, lower bound of the coding interval (R11). -/
  low : Word
  /-- RANGE, width of the coding interval (R12). -/
  range : Word
  /-- TBL, the cumulative frequency table, `T[i]` for `i` = 0..256 (R13). -/
  tbl : Table
  /-- OUT, the bytes emitted since the last START or reset, in order (R14). -/
  out : List Byte
  /-- PHASE (R15). -/
  phase : Phase
  /-- ERR (R16). -/
  err : ErrCode
  /-- DONE (R18). -/
  done : Bool
  deriving DecidableEq, Repr

/-- The state of a run: the block, and beside it what is the run's and not the block's (R10). -/
structure State extends Block where
  /-- The host's events not consumed yet, oldest first: a parameter of the run, no state of the block (R10, R43; DESIGN
  CHOICE, log entry 1). -/
  cmd : List HostEvent
  /-- How many free values of LOW, RANGE and TBL have been used up by hardware resets: the model's own (DESIGN
  CHOICE, log entry 4). -/
  resets : Nat
  deriving DecidableEq, Repr

/-- Why the machine stops. -/
inductive Fault where
  /-- Raised by SYM, in DIVIDE, when `T[256] = 0`: the spec gives such a division no result and asks for a fault or a
  refusal (R72, spec/93_implementation_defined.md U1; log entry 6). No reachable state meets it. Safe: the model stops
  where the spec says nothing. -/
  | divideByZeroTotal
  deriving DecidableEq, Repr

/-- Why an instruction has no meaning. -/
inductive Refusal where
  /-- Raised by an arm of `exec` whose instruction has no meaning yet; no arm raises it now. Safe: the model stops. -/
  | notModelled (mnemonic : String)
  deriving DecidableEq, Repr

/-- The state right after the hardware reset (R28): PHASE, ERR, DONE and OUT as the spec says, LOW, RANGE and TBL the
free values number 0 (log entry 3), no event issued yet (log entry 1). -/
def State.reset : State where
  low := Config.unspecifiedLow 0
  range := Config.unspecifiedRange 0
  tbl := Config.unspecifiedTbl 0
  out := []
  phase := .idle
  err := .noError
  done := false
  cmd := []
  resets := 1

end Sys2Proof.Machine
end

