-- ==== Sys2Proof/Machine/Flags.lean ====
section
/-! DEFINITION. The status fields: the 2-bit codes of PHASE and ERR (spec/10_state.md R15, R16), the STATUS register
that shows them (R19), and which phases accept which command (spec/44_commands.md R84). The block has no
condition code and no arithmetic flag (spec/60_exceptions.md R100, spec/41_interval_arithmetic.md section 5). -/

namespace Sys2Proof.Machine

/-- The value of the PHASE register (R15). -/
def phaseCode (p : Phase) : BitVec 2 :=
  match p with
  | .idle => 0
  | .opened => 1
  | .coding => 2
  | .fault => 3

/-- The value of the ERR register (R16). -/
def errCode (e : ErrCode) : BitVec 2 :=
  match e with
  | .noError => 0
  | .emptyInput => 1
  | .illegalCommand => 2
  | .badSequence => 3

/-- STATUS = 0b000, DONE, ERR[1:0], PHASE[1:0], most significant first: a read-only view with no side effect (R19). -/
def status (s : State) : BitVec 8 :=
  (0 : BitVec 3) ++ BitVec.ofBool s.done ++ errCode s.err ++ phaseCode s.phase

/-- In phase FAULT the block consumes and ignores every command word (R84, R106). -/
def ignoresCommands (s : State) : Bool :=
  s.phase == .fault

/-- START is accepted in IDLE only (R85). -/
def acceptsStart (p : Phase) : Bool :=
  match p with
  | .idle => true
  | .opened => false
  | .coding => false
  | .fault => false

/-- SYM is accepted in OPEN and CODING (R86). -/
def acceptsSym (p : Phase) : Bool :=
  match p with
  | .idle => false
  | .opened => true
  | .coding => true
  | .fault => false

/-- FINISH is accepted in OPEN and CODING (R87). -/
def acceptsFinish (p : Phase) : Bool :=
  match p with
  | .idle => false
  | .opened => true
  | .coding => true
  | .fault => false

end Sys2Proof.Machine
end

