-- ==== Sys2Proof/Machine/Ops.lean ====
section
/-! DEFINITION. The shared operations: the arithmetic primitives (spec/00_scope.md R8), the writes of the registers, the
access to TBL (spec/20_memory.md R31), the append to OUT (spec/43_byte_packer.md R79), the entry of an
error (spec/60_exceptions.md R97 to R99, R103), the way out of it (the hardware reset, spec/70_reset_and_hazards.md
R111), and the consumption of the command stream (spec/20_memory.md R43). -/

namespace Sys2Proof.Machine

/-! ### Arithmetic primitives (R8) -/

/-- `(a + b) mod 2^32`; the carry out of bit 31 is recorded nowhere (R8). -/
def add32 (a b : Word) : Word :=
  a + b

/-- `(a - b) mod 2^32` (R8). -/
def sub32 (a b : Word) : Word :=
  a - b

/-- `(a * b) mod 2^32` (R8). -/
def mul32 (a b : Word) : Word :=
  a * b

/-- `floor(a / b)` for `b != 0`; for `b = 0` there is no result (R8, R72). -/
def div32 (a b : Word) : Option Word :=
  if b = 0 then none else some (a / b)

/-- `(a * 256) mod 2^32` (R8). -/
def shl8 (a : Word) : Word :=
  a <<< 8

/-- `floor(a / 2)` (R8). -/
def shr1 (a : Word) : Word :=
  a >>> 1

/-- Bitwise OR (R8). -/
def or32 (a b : Word) : Word :=
  a ||| b

/-- `a[31:24]` (R8). -/
def msb8 (a : Word) : Byte :=
  a.extractLsb' 24 8

/-- The four bytes of a word, most significant first (R34). -/
def bytesMsbFirst (a : Word) : List Byte :=
  [a.extractLsb' 24 8, a.extractLsb' 16 8, a.extractLsb' 8 8, a.extractLsb' 0 8]

/-! ### Register writes -/

/-- `LOW <- v`. -/
def setLow (v : Word) (s : State) : State :=
  { s with low := v }

/-- `RANGE <- v`. -/
def setRange (v : Word) (s : State) : State :=
  { s with range := v }

/-- Replace the whole of TBL. -/
def setTbl (t : Table) (s : State) : State :=
  { s with tbl := t }

/-- `OUT <- bs`. -/
def setOut (bs : List Byte) (s : State) : State :=
  { s with out := bs }

/-- `PHASE <- p`. -/
def setPhase (p : Phase) (s : State) : State :=
  { s with phase := p }

/-- `ERR <- e`. -/
def setErr (e : ErrCode) (s : State) : State :=
  { s with err := e }

/-- `DONE <- d`. -/
def setDone (d : Bool) (s : State) : State :=
  { s with done := d }

/-- The rest of the run's command stream. -/
def setCmd (es : List HostEvent) (s : State) : State :=
  { s with cmd := es }

/-- The index of the next free values. -/
def setResets (n : Nat) (s : State) : State :=
  { s with resets := n }

/-! ### The table memory and the output stream -/

/-- Entry `i` of a table (R31). -/
def entry (t : Table) (i : Fin 257) : Word :=
  t.get i

/-- `MemRead(TBL, i)`: the whole 32-bit entry; reading has no side effect (R31). -/
def memRead (i : Fin 257) (s : State) : Word :=
  entry s.tbl i

/-- `MemWrite(TBL, i, v)`: replaces the whole entry (R31). -/
def memWrite (i : Fin 257) (v : Word) (s : State) : State :=
  setTbl (s.tbl.set i v) s

/-- `Emit(b)`: append one byte to OUT (R79). -/
def emit (b : Byte) (s : State) : State :=
  setOut (s.out ++ [b]) s

/-! ### Errors: entry and recovery -/

/-- The code a cause leaves in ERR (R96). -/
def causeCode (c : ErrorCause) : ErrCode :=
  match c with
  | .emptyInput => .emptyInput
  | .illegalCommand => .illegalCommand
  | .badSequence => .badSequence

/-- The phase a cause leaves: EmptyInput ends the call, the two faults enter FAULT (R103). -/
def causePhase (c : ErrorCause) : Phase :=
  match c with
  | .emptyInput => .idle
  | .illegalCommand => .fault
  | .badSequence => .fault

/-- EmptyInput sets DONE; a fault leaves it unchanged (R103, R18). -/
def causeDone (c : ErrorCause) (old : Bool) : Bool :=
  match c with
  | .emptyInput => true
  | .illegalCommand => old
  | .badSequence => old

/-- Error entry, the one operation of all three causes: ERR, DONE and PHASE as the table of R103 says; nothing is
saved and nothing else is written (R103, R104). -/
def raiseError (c : ErrorCause) (s : State) : State :=
  setErr (causeCode c) (setDone (causeDone c s.done) (setPhase (causePhase c) s))

/-- The hardware reset event, the only way out of phase FAULT (R111, R105): PHASE, ERR, DONE and OUT as at reset; LOW,
RANGE and every table entry become unspecified, that is the next free values (log entry 3). The command stream is the
host's and is not touched (R43). -/
def hardwareReset (s : State) : State :=
  setPhase .idle <| setErr .noError <| setDone false <| setOut [] <|
  setLow (Config.unspecifiedLow s.resets) <| setRange (Config.unspecifiedRange s.resets) <|
  setTbl (Config.unspecifiedTbl s.resets) <| setResets (s.resets + 1) s

/-- The acceptance rule every command shares (R84): ignored in phase FAULT (R106), BadSequence in a phase that
does not accept the command (R99), otherwise the command's own effect. -/
def guarded (accepts : Phase → Bool) (act : State → Host.Outcome State Fault Refusal) (s : State) :
    Host.Outcome State Fault Refusal :=
  if ignoresCommands s then .next s
  else if accepts s.phase then act s
  else .next (raiseError .badSequence s)

/-! ### The command stream -/

/-- Take the event at the head of the command stream: each is consumed exactly once, whatever it does (R43). `none` when
the stream is exhausted. -/
def takeEvent (s : State) : Option (HostEvent × State) :=
  match s.cmd with
  | [] => none
  | e :: rest => some (e, setCmd rest s)

/-- With no event issued the block is idle with its state held (R110; DEDUCED, log entry 2). -/
def idle (s : State) : Host.Outcome State Fault Refusal :=
  .next s

/-- The host issues one more event, to be taken next. -/
def issueNext (e : HostEvent) (s : State) : State :=
  setCmd (e :: s.cmd) s

end Sys2Proof.Machine
end

