-- ==== Sys2Proof/Machine/BytePacker.lean ====
section
/-! DEFINITION. The output byte packer (spec/43_byte_packer.md): EMIT R79 is `emit` of Machine/Ops.lean; FLUSH R80. -/

namespace Sys2Proof.Machine

/-- FLUSH (R80): the four bytes of LOW, most significant first; LOW and RANGE are not written. -/
def flush (s : State) : State :=
  emit (s.low.extractLsb' 0 8) <| emit (s.low.extractLsb' 8 8) <| emit (s.low.extractLsb' 16 8) <|
  emit (s.low.extractLsb' 24 8) s

end Sys2Proof.Machine
end

