-- ==== Sys2Proof/Machine/Operands.lean ====
section
/-! DEFINITION. The one operand form of the command set, the symbol `b = zext_32(ARG)` of SYM (spec/30_encoding.md R46), as
the table indices it is used for (spec/40_frequency_engine.md R56), and the temporaries LOOKUP hands on
(spec/10_state.md R20). -/

namespace Sys2Proof.Machine

/-- `zext_32(ARG)`: the symbol as an unsigned 32-bit value (R46). -/
def symbolValue (b : Byte) : Word :=
  b.setWidth 32

/-- Index `b` of TBL. -/
def lowIndex (b : Byte) : Fin 257 :=
  ⟨b.toNat, Nat.lt_succ_of_lt b.isLt⟩

/-- Index `b + 1` of TBL, computed without wrapping: 255 + 1 is 256 (R56). -/
def highIndex (b : Byte) : Fin 257 :=
  ⟨b.toNat + 1, Nat.succ_lt_succ b.isLt⟩

/-- Index 256 of TBL, the entry that holds the total (R13). -/
def totalIndex : Fin 257 :=
  ⟨256, Nat.lt_succ_self 256⟩

/-- What LOOKUP returns: TOTAL, LOWSYM and HIGHSYM, temporaries of one SYM (R20, R56). -/
structure SymbolBounds where
  total : Word
  lowSym : Word
  highSym : Word
  deriving DecidableEq, Repr

end Sys2Proof.Machine
end

