-- ==== Sys2Proof/Machine/FrequencyEngine.lean ====
section
/-! DEFINITION. The cumulative frequency engine (spec/40_frequency_engine.md): TINIT R55, LOOKUP R56, UPDATE R57,
RESCALE_CHECK R58, RESCALE R59. Each is written as a function of the old table in one pass over its entries, the form
R57 and R59 themselves give beside their loops; the loops, access by access, are below them as `tinitLoop`,
`updateLoop` and `rescaleLoop` (log entry 9). -/

namespace Sys2Proof.Machine

/-- The individual frequency of the symbol `s`: `sub32(T[s+1], T[s])` (R62). -/
def freq (t : Table) (s : Byte) : Word :=
  sub32 (entry t (highIndex s)) (entry t (lowIndex s))

/-! ### TINIT -/

/-- The table of a fresh call: `T[i] = i` (R55). -/
def tableInit : Table :=
  ⟨((List.range 257).map (BitVec.ofNat 32)).toArray, by simp⟩

/-- TINIT (R55). -/
def tinit (s : State) : State :=
  setTbl tableInit s

/-! ### LOOKUP -/

/-- LOOKUP(b): the total and the symbol's bounds; writes nothing (R56). -/
def lookup (b : Byte) (s : State) : SymbolBounds :=
  { total := memRead totalIndex s, lowSym := memRead (lowIndex b) s, highSym := memRead (highIndex b) s }

/-! ### UPDATE -/

/-- Leave the first `n` entries, add 1 to every later one. -/
def incrementFrom : Nat → List Word → List Word
  | 0, xs => xs.map (fun x => add32 x 1)
  | _ + 1, [] => []
  | n + 1, x :: xs => x :: incrementFrom n xs

theorem incrementFrom_length (n : Nat) (xs : List Word) : (incrementFrom n xs).length = xs.length := by
  induction n generalizing xs with
  | zero => simp [incrementFrom]
  | succ n ih => cases xs <;> simp [incrementFrom, ih]

/-- The table after UPDATE(b): entries `b+1`..256 are one larger (R57). -/
def tableUpdate (b : Byte) (t : Table) : Table :=
  ⟨(incrementFrom (b.toNat + 1) t.toList).toArray, by simp [incrementFrom_length]⟩

/-- UPDATE(b) (R57). -/
def update (b : Byte) (s : State) : State :=
  setTbl (tableUpdate b s.tbl) s

/-! ### RESCALE_CHECK and RESCALE -/

/-- RESCALE_CHECK: strictly greater, unsigned; writes nothing (R58). -/
def rescaleCheck (s : State) : Bool :=
  decide (Config.rescaleLimit < memRead totalIndex s)

/-- `new_delta = (delta >> 1) + 1` (R59). -/
def halve (delta : Word) : Word :=
  add32 (shr1 delta) 1

/-- Rebuild the entries that follow one entry whose old value is `prevOld` and whose new value is `prevNew` (R59). -/
def rebuildFrom : Word → Word → List Word → List Word
  | _, _, [] => []
  | prevOld, prevNew, nextOld :: rest =>
    let new := add32 prevNew (halve (sub32 nextOld prevOld))
    new :: rebuildFrom nextOld new rest

/-- `T[0]` stays, the others are rebuilt left to right (R59). -/
def rescaleList (xs : List Word) : List Word :=
  match xs with
  | [] => []
  | t0 :: rest => t0 :: rebuildFrom t0 t0 rest

theorem rebuildFrom_length (p q : Word) (xs : List Word) : (rebuildFrom p q xs).length = xs.length := by
  induction xs generalizing p q with
  | nil => rfl
  | cons x xs ih => simp [rebuildFrom, ih]

theorem rescaleList_length (xs : List Word) : (rescaleList xs).length = xs.length := by
  cases xs <;> simp [rescaleList, rebuildFrom_length]

/-- The table after RESCALE (R59). -/
def tableRescale (t : Table) : Table :=
  ⟨(rescaleList t.toList).toArray, by simp [rescaleList_length]⟩

/-- RESCALE (R59): the interval and OUT are not touched. -/
def rescale (s : State) : State :=
  setTbl (tableRescale s.tbl) s

/-! ### The loops of R55, R57 and R59, one access to TBL at a time -/

/-- `for i = 0 to 256 do T[i] <- i end` (R55). -/
def tinitLoop (s : State) : State :=
  (List.finRange 257).foldl (fun u i => memWrite i (BitVec.ofNat 32 i.val) u) s

/-- `for i = b+1 to 256 do T[i] <- add32(T[i], 1) end` (R57). -/
def updateLoop (b : Byte) (s : State) : State :=
  ((List.finRange 257).drop (b.toNat + 1)).foldl (fun u i => memWrite i (add32 (memRead i u) 1) u) s

/-- One pass of the loop of R59: the state and `prev_old`. -/
def rescalePass (p : State × Word) (i : Fin 256) : State × Word :=
  let nextOld := memRead i.succ p.1
  let newDelta := add32 (shr1 (sub32 nextOld p.2)) 1
  (memWrite i.succ (add32 (memRead i.castSucc p.1) newDelta) p.1, nextOld)

/-- The in-place loop of R59, `i` = 0 to 255, `prev_old` starting at `T[0]`. -/
def rescaleLoop (s : State) : State :=
  ((List.finRange 256).foldl rescalePass (s, memRead 0 s)).1

end Sys2Proof.Machine
end

