-- ==== Sys2Proof/Machine/IntervalArithmetic.lean ====
section
/-! DEFINITION. The fixed-point interval multiplier/divider (spec/41_interval_arithmetic.md): IINIT R65, DIVIDE R66 and
R72, NARROW R67. The carry out of LOW is lost (R69) and a zero unit is no error (R70). -/

namespace Sys2Proof.Machine

/-- IINIT (R65). -/
def iinit (s : State) : State :=
  setRange Config.rangeInit (setLow Config.lowInit s)

/-- DIVIDE(TOTAL): `floor(RANGE / TOTAL)`; no result for TOTAL = 0 (R66, R72). -/
def divide (total : Word) (s : State) : Option Word :=
  div32 s.range total

/-- NARROW(UNIT, LOWSYM, HIGHSYM) (R67). -/
def narrow (unit lowSym highSym : Word) (s : State) : State :=
  setRange (mul32 unit (sub32 highSym lowSym)) (setLow (add32 s.low (mul32 unit lowSym)) s)

end Sys2Proof.Machine
end

