-- ==== Sys2Proof/Machine/Normalizer.lean ====
section
/-! DEFINITION. The interval normalizer (spec/42_normalizer.md): RENORM_STEP R74 and RENORM R73. -/

namespace Sys2Proof.Machine

/-- RENORM_STEP (R74): emit the top byte of LOW, shift LOW, widen RANGE. -/
def renormStep (s : State) : State :=
  setRange (or32 (shl8 s.range) 0x000000FF) (setLow (shl8 s.low) (emit (msb8 s.low) s))

/-- `while RANGE <= 65536 do call RENORM_STEP end`, at most `n` times round. -/
def renormWithin : Nat → State → State
  | 0, s => s
  | n + 1, s => if s.range ≤ Config.bottom then renormWithin n (renormStep s) else s

/-- RENORM (R73). Three times round are always enough, from every value of RANGE (R75; DEDUCED, log entry 11). -/
def renorm (s : State) : State :=
  renormWithin 3 s

end Sys2Proof.Machine
end

