-- ==== Sys2Proof/Machine/Commands.lean ====
section
/-! DEFINITION. The sequencer's three commands (spec/44_commands.md): START R85, SYM R86, FINISH R87, one meaning each. The
acceptance rule of R84 is `guarded` of Machine/Ops.lean. -/

namespace Sys2Proof.Machine

/-- START where it is accepted: everything is initialised and a call is open (R85). -/
def startCall (s : State) : State :=
  setPhase .opened (setDone false (setErr .noError (setOut [] (iinit (tinit s)))))

/-- Steps 4 to 7 of coding a symbol, once UNIT is known: NARROW, RENORM, UPDATE, RESCALE_CHECK and RESCALE (R86). -/
def codeWithUnit (b : Byte) (unit : Word) (s : State) : State :=
  let bounds := lookup b s
  let counted := update b (renorm (narrow unit bounds.lowSym bounds.highSym s))
  let rescaled := if rescaleCheck counted then rescale counted else counted
  setPhase .coding rescaled

/-- SYM where it is accepted: LOOKUP and DIVIDE, then the rest; a zero total, which no reachable state has, stops the
machine (R86, R72; log entry 6). -/
def codeSymbol (b : Byte) (s : State) : Host.Outcome State Fault Refusal :=
  match divide (lookup b s).total s with
  | none => .fault .divideByZeroTotal
  | some unit => .next (codeWithUnit b unit s)

/-- FINISH where it is accepted: EmptyInput in phase OPEN, otherwise FLUSH, DONE and IDLE (R87). -/
def finishCall (s : State) : State :=
  if s.phase = .opened then raiseError .emptyInput s
  else setPhase .idle (setDone true (flush s))

/-- START (R85). -/
def execStart (s : State) : Host.Outcome State Fault Refusal :=
  guarded acceptsStart (fun u => .next (startCall u)) s

/-- SYM b (R86). -/
def execSym (b : Byte) (s : State) : Host.Outcome State Fault Refusal :=
  guarded acceptsSym (codeSymbol b) s

/-- FINISH (R87). -/
def execFinish (s : State) : Host.Outcome State Fault Refusal :=
  guarded acceptsFinish (fun u => .next (finishCall u)) s

end Sys2Proof.Machine
end

