-- ==== Sys2Proof/Machine/Sequencer.lean ====
section
/-! DEFINITION. The sequencer: how one host event is consumed and executed completely (spec/44_commands.md R84,
spec/20_memory.md R43). -/

namespace Sys2Proof.Machine

/-- One command word, already consumed: ignored in phase FAULT, otherwise decoded; an illegal word raises
IllegalCommand, a command is executed (R84, R102). -/
def runWord (w : CmdWord) (s : State) : Host.Outcome State Fault Refusal :=
  if ignoresCommands s then .next s
  else
    match decode w with
    | .error _ => .next (raiseError .illegalCommand s)
    | .ok i => exec i s

/-- One event of the host, already consumed (R114). -/
def runEvent (e : HostEvent) (s : State) : Host.Outcome State Fault Refusal :=
  match e with
  | .word w => runWord w s
  | .reset => .next (hardwareReset s)

/-- The event at the head of the stream; with none issued the block is idle (R110, log entry 2). -/
def runHead (s : State) : Host.Outcome State Fault Refusal :=
  match takeEvent s with
  | none => idle s
  | some (e, s') => runEvent e s'

end Sys2Proof.Machine
end

