-- ==== Sys2Proof/Machine/Step.lean ====
section
/-! DEFINITION. One step of the block (spec/44_commands.md R84) and the host's way of placing the next instruction. -/

namespace Sys2Proof.Machine

/-- One step: the next host event, consumed and executed completely (R84, R43). -/
def step (s : State) : Host.Outcome State Fault Refusal :=
  runHead s

/-- `s` with the instruction of an opcode-table word at the head of the command stream, so that the very next step runs
it (log entry 15). -/
def State.withFetchWord (s : State) (nbits w : Nat) : State :=
  issueNext (.word (tableWord nbits w)) s

end Sys2Proof.Machine
end

