-- ==== Sys2Proof/Machine/Stream.lean ====
section
/-! DEFINITION. Runs of the block on a command stream (spec/44_commands.md R88, R91) and the call-level operation
COMPRESS in its function form (R88), written on its own variables and not on State, so that the agreement of the two
forms is a theorem. -/

namespace Sys2Proof.Machine

/-- `n` steps, stopping at a fault or a refusal. -/
def runSteps : Nat → State → Host.Outcome State Fault Refusal
  | 0, s => .next s
  | n + 1, s =>
    match step s with
    | .next t => runSteps n t
    | .fault f => .fault f
    | .refused r => .refused r

/-- Commands executed one after another, each completely (R38, R84). -/
def execAll : List Instr → State → Host.Outcome State Fault Refusal
  | [], s => .next s
  | i :: is, s =>
    match exec i s with
    | .next t => execAll is t
    | .fault f => .fault f
    | .refused r => .refused r

/-- The host events that issue these commands, in order. -/
def streamOf (is : List Instr) : List HostEvent :=
  is.map (fun i => .word (encode i))

/-- The stream START; SYM x[0]; ...; SYM x[n-1]; FINISH (R88, R53). -/
def compressStream (x : List Byte) : List HostEvent :=
  streamOf (compressExpansion x)

/-! ### COMPRESS as a function -/

/-- Why COMPRESS returns no output: EmptyInput is the source's one error (R88); the other reason is the division R72
gives no result, which never happens (R90). -/
inductive CompressError where
  | emptyInput
  | divideByZeroTotal
  deriving DecidableEq, Repr

/-- The variables T, LOW, RANGE and OUT of the function form (R88). -/
structure Coder where
  tbl : Table
  low : Word
  range : Word
  out : List Byte
  deriving DecidableEq, Repr

/-- `T[i] <- i; LOW <- 0; RANGE <- 0xFFFFFFFF; OUT <- []` (R88). -/
def coderStart : Coder where
  tbl := tableInit
  low := 0x00000000
  range := 0xFFFFFFFF
  out := []

/-- `while RANGE <= 65536 do Emit(LOW[31:24]); LOW <- shl8(LOW); RANGE <- or32(shl8(RANGE), 0xFF) end` (R88), at most
`n` times round (three are enough, R75; log entry 11). -/
def coderRenorm : Nat → Coder → Coder
  | 0, c => c
  | n + 1, c =>
    if c.range ≤ 65536 then
      coderRenorm n { c with
        out := c.out ++ [msb8 c.low], low := shl8 c.low, range := or32 (shl8 c.range) 0xFF }
    else c

/-- One pass of the loop of R88 over the input. -/
def coderSymbol (b : Byte) (c : Coder) : Option Coder :=
  match div32 c.range (entry c.tbl totalIndex) with
  | none => none
  | some unit =>
    let lowSym := entry c.tbl (lowIndex b)
    let highSym := entry c.tbl (highIndex b)
    let widened := coderRenorm 3 { c with
      low := add32 c.low (mul32 unit lowSym), range := mul32 unit (sub32 highSym lowSym) }
    let counted := tableUpdate b c.tbl
    some { widened with
      tbl := if entry counted totalIndex > 8388608 then tableRescale counted else counted }

/-- The loop of R88 over the whole input. -/
def coderAll : List Byte → Coder → Option Coder
  | [], c => some c
  | b :: bs, c =>
    match coderSymbol b c with
    | none => none
    | some c' => coderAll bs c'

/-- COMPRESS(x) (R88). -/
def compress (x : List Byte) : Except CompressError (List Byte) :=
  match x with
  | [] => .error .emptyInput
  | b :: bs =>
    match coderAll (b :: bs) coderStart with
    | none => .error .divideByZeroTotal
    | some c => .ok (c.out ++ bytesMsbFirst c.low)

end Sys2Proof.Machine
end

