-- ==== Sys2Proof/Machine/Assembler.lean ====
section
/-! DEFINITION. The textual form of a command stream (spec/30_encoding.md R52) and the pseudo-instruction COMPRESS (R53), as
host events. Where R52 fixes no detail of the text the model's choice is log entry 18. -/

namespace Sys2Proof.Machine

/-- What one line says (R52, R53). -/
inductive AsmLine where
  /-- Nothing but a comment. -/
  | blank
  | command (i : Instr)
  /-- `.word`: an arbitrary 16-bit word, legal or not. -/
  | rawWord (w : CmdWord)
  /-- `RESET`: the hardware reset event at this point of the stream. -/
  | reset
  | compress (x : List Byte)
  deriving DecidableEq, Repr

/-- The events a line stands for (R52, R53). -/
def assembleLine (l : AsmLine) : List HostEvent :=
  match l with
  | .blank => []
  | .command i => [.word (encode i)]
  | .rawWord w => [.word w]
  | .reset => [.reset]
  | .compress x => compressStream x

/-! ### Reading a line -/

/-- The pieces between occurrences of `c`. -/
def splitAtChar (c : Char) : List Char → List (List Char)
  | [] => [[]]
  | x :: xs =>
    if x = c then [] :: splitAtChar c xs
    else
      match splitAtChar c xs with
      | [] => [[x]]
      | piece :: pieces => (x :: piece) :: pieces

/-- The words of a text between one or more spaces (DESIGN CHOICE, log entry 18). -/
def wordsOf (text : List Char) : List (List Char) :=
  (splitAtChar ' ' text).filter (fun piece => !piece.isEmpty)

/-- A line without its comment, which runs from a semicolon to the end of the line (R52), as its words. -/
def lineTokens (line : List Char) : List (List Char) :=
  wordsOf (line.takeWhile (fun c => c != ';'))

/-- The value of a digit; hexadecimal digits of either case are taken (DESIGN CHOICE, log entry 18). -/
def digitValue (c : Char) : Option Nat :=
  if '0' ≤ c ∧ c ≤ '9' then some (c.toNat - 48)
  else if 'A' ≤ c ∧ c ≤ 'F' then some (c.toNat - 55)
  else if 'a' ≤ c ∧ c ≤ 'f' then some (c.toNat - 87)
  else none

/-- Digits in a base, most significant first, after the value read so far. -/
def digitsValue (base : Nat) : Nat → List Char → Option Nat
  | acc, [] => some acc
  | acc, c :: cs =>
    match digitValue c with
    | none => none
    | some d => if d < base then digitsValue base (acc * base + d) cs else none

/-- A number in decimal or, after `0x`, in hexadecimal, as R52 writes a `<byte>`; leading zeros are taken (DESIGN CHOICE,
log entry 18). -/
def numberValue (cs : List Char) : Option Nat :=
  match cs with
  | [] => none
  | ['0', 'x'] => none
  | '0' :: 'x' :: ds => digitsValue 16 0 ds
  | ds => digitsValue 10 0 ds

/-- `<byte>`: an integer 0..255 (R52). -/
def byteValue (cs : List Char) : Option Byte :=
  match numberValue cs with
  | none => none
  | some n => if n < 256 then some (BitVec.ofNat 8 n) else none

/-- `<word16>`: a 16-bit word, that is an integer 0..65535. R52 does not say how it is written: that it is written as a
`<byte>` is, in decimal or as `0x` hexadecimal, is the model's choice (DESIGN CHOICE, log entry 18). -/
def wordValue (cs : List Char) : Option CmdWord :=
  match numberValue cs with
  | none => none
  | some n => if n < 65536 then some (BitVec.ofNat 16 n) else none

/-- What stands between two commas: exactly one word, a byte. -/
def operandValue (piece : List Char) : Option Byte :=
  match wordsOf piece with
  | [operand] => byteValue operand
  | _ => none

/-- The operands of COMPRESS, each a byte. -/
def bytesValue : List (List Char) → Option (List Byte)
  | [] => some []
  | piece :: rest =>
    match operandValue piece, bytesValue rest with
    | some b, some bs => some (b :: bs)
    | _, _ => none

/-- The operand list of COMPRESS: `b0, b1, ..., b(n-1)`, or nothing (R53). R53 shows one comma between two operands and
says nothing of the spaces around it: any number of them, none included, is taken, and two operands with only spaces
between them are refused (DESIGN CHOICE, log entry 18). -/
def compressOperands (tokens : List (List Char)) : Option (List Byte) :=
  if tokens.isEmpty then some [] else bytesValue (splitAtChar ',' (List.intercalate [' '] tokens))

/-- One line of the text; `none` for a line that R52 and R53 do not describe (DESIGN CHOICE, log entry 18). -/
def parseLine (line : List Char) : Option AsmLine :=
  match lineTokens line with
  | [] => some .blank
  | mnemonic :: operands =>
    if mnemonic = ['C', 'O', 'M', 'P', 'R', 'E', 'S', 'S'] then (compressOperands operands).map .compress
    else
      match operands with
      | [] =>
        if mnemonic = ['S', 'T', 'A', 'R', 'T'] then some (.command .start)
        else if mnemonic = ['F', 'I', 'N', 'I', 'S', 'H'] then some (.command .finish)
        else if mnemonic = ['R', 'E', 'S', 'E', 'T'] then some .reset
        else none
      | [operand] =>
        if mnemonic = ['S', 'Y', 'M'] then (byteValue operand).map (fun b => .command (.sym b))
        else if mnemonic = ['.', 'w', 'o', 'r', 'd'] then (wordValue operand).map .rawWord
        else none
      | _ :: _ :: _ => none

/-- A text, line by line, as the stream of host events it stands for. -/
def assemble : List (List Char) → Option (List HostEvent)
  | [] => some []
  | line :: lines =>
    match parseLine line, assemble lines with
    | some l, some es => some (assembleLine l ++ es)
    | _, _ => none

end Sys2Proof.Machine
end

