-- ==== Sys2Proof/Machine/Instances.lean ====
section
/-! DEFINITION. Several instances of the block side by side (spec/20_memory.md R41, spec/60_exceptions.md R109): a list of
states that share nothing, and a schedule that says whose step comes next. -/

namespace Sys2Proof.Machine

/-- One step of instance `k`; the others are not touched. `none` when there is no instance `k` or it stops. -/
def stepInstance (k : Nat) (bank : List State) : Option (List State) :=
  match bank[k]? with
  | none => none
  | some s =>
    match step s with
    | .next t => some (bank.set k t)
    | .fault _ => none
    | .refused _ => none

/-- The instances take steps in the order of the schedule (log entry 17). -/
def runSchedule : List Nat → List State → Option (List State)
  | [], bank => some bank
  | k :: ks, bank =>
    match stepInstance k bank with
    | none => none
    | some bank' => runSchedule ks bank'

end Sys2Proof.Machine
end

