-- ==== Sys2Proof/Safety.lean ====
section
/-! DEFINITION. What counts as a safe run, in the terms the statements use: the invariants of spec/10_state.md section 3 and 4
(R23 to R26), which states a run reaches, and when a call has succeeded or a run has failed (spec/44_commands.md R91,
spec/10_state.md R18). -/

namespace Sys2Proof.Machine

/-- A call is open: phase OPEN or CODING (R15). -/
def callOpen (s : State) : Prop :=
  s.phase = .opened ∨ s.phase = .coding

/-- Invariant T0: `T[0] = 0` (R23). -/
def tableZero (t : Table) : Prop :=
  entry t 0 = 0

/-- Invariant STRICT: every gap `T[s+1] - T[s]` is at least 1 (R24), as numbers. -/
def tableStrict (t : Table) : Prop :=
  ∀ s : Byte, (entry t (lowIndex s)).toNat + 1 ≤ (entry t (highIndex s)).toNat

/-- Invariant TOTAL: `256 <= T[256] <= 2^23` (R25). -/
def totalBounded (t : Table) : Prop :=
  256 ≤ (entry t totalIndex).toNat ∧ (entry t totalIndex).toNat ≤ 8388608

/-- Invariant RANGE: `RANGE > 2^16` (R26). -/
def rangeWide (s : State) : Prop :=
  65537 ≤ s.range.toNat

/-- What holds whenever a call is open and no command is in progress (R23 to R26). -/
def CallInvariant (s : State) : Prop :=
  callOpen s → tableZero s.tbl ∧ tableStrict s.tbl ∧ totalBounded s.tbl ∧ rangeWide s

/-- The states a run from the hardware reset reaches, whatever stream the host supplies (R113, R114). -/
inductive Reachable : State → Prop
  | reset (es : List HostEvent) : Reachable (setCmd es State.reset)
  | step (s t : State) : Reachable s → step s = .next t → Reachable t

/-- The states in which a TINIT has been executed since the last hardware reset (R23, R24): after a START accepted in
IDLE, and on through any command words. -/
inductive InitialisedSinceReset : State → Prop
  | start (s t : State) : s.phase = .idle → exec .start s = .next t → InitialisedSinceReset t
  | word (s t : State) (w : CmdWord) (rest : List HostEvent) :
      InitialisedSinceReset s → s.cmd = .word w :: rest → step s = .next t → InitialisedSinceReset t

/-- OUT holds the complete result of the last call (R18). -/
def callSucceeded (s : State) : Prop :=
  s.done = true ∧ s.err = .noError ∧ s.phase = .idle

/-- The run has failed: the host broke the protocol (R91, R106; log entry 19). -/
def runFailed (s : State) : Prop :=
  s.phase = .fault

end Sys2Proof.Machine
end

