-- ==== Sys2Proof/Certificates/Slice0/Obligations.lean ====
section
/-! DEFINITION. The statements for the provers, each from a numbered rule of spec/ (named in its docstring) or from
the model's own invariants. Every statement about a command says what happens in every phase. -/

open Sys2Proof Sys2Proof.Machine

/-! ## Encoding -/

/-- R47: the rows are disjoint, a word is a command exactly when it selects that command's row, and there are 258
legal words. -/
def Obligations.DecodeMatchesOpcodeTable : Prop :=
  (∀ w : CmdWord, ((opcodeTable.filter (fun r => rowMatches r w)).length ≤ 1)) ∧
  (∀ (w : CmdWord) (i : Instr), decode w = .ok i →
    (opcodeTable.filter (fun r => rowMatches r w)).map OpcodeRow.mnemonic = [mnemonicOf i]) ∧
  (∀ w : CmdWord, (∃ r ∈ opcodeTable, rowMatches r w = true) → ∃ i, decode w = .ok i) ∧
  ((Finset.range 65536).filter (fun n => isLegal (BitVec.ofNat 16 n) = true)).card = 258

/-- R48, R49: the illegal words are those that match no row of the opcode table, that is those with OPC 0, those with OPC 4
or more, and the 510 with OPC 1 or 3 and a non-zero ARG; there are 65278; 0x0000 and 0xFFFF are two; executing one raises
IllegalCommand in every phase but FAULT. -/
def Obligations.IllegalWordsAreTheOthers : Prop :=
  (∀ w : CmdWord, isLegal w = false ↔ ∀ r ∈ opcodeTable, rowMatches r w = false) ∧
  (∀ w : CmdWord, decode w = .error (.illegal w) ↔
    (opcOf w).toNat = 0 ∨ 4 ≤ (opcOf w).toNat ∨
      (((opcOf w).toNat = 1 ∨ (opcOf w).toNat = 3) ∧ (argOf w).toNat ≠ 0)) ∧
  ((Finset.range 65536).filter (fun n => isLegal (BitVec.ofNat 16 n) = false)).card = 65278 ∧
  ((Finset.range 65536).filter (fun n => isLegal (BitVec.ofNat 16 n) = false ∧
    ((opcOf (BitVec.ofNat 16 n)).toNat = 1 ∨ (opcOf (BitVec.ofNat 16 n)).toNat = 3))).card = 510 ∧
  isLegal 0x0000 = false ∧ isLegal 0xFFFF = false ∧
  (∀ (s : State) (w : CmdWord) (rest : List HostEvent), s.cmd = .word w :: rest → isLegal w = false →
    s.phase ≠ .fault →
    step s = .next { s with cmd := rest, err := .illegalCommand, phase := .fault })

/-- Decoding undoes encoding for every command and every operand, and encoding undoes decoding for every legal word. -/
def Obligations.EncodeDecodeRoundTrip : Prop :=
  (∀ i : Instr, i.wellFormed = true → decode (encode i) = .ok i) ∧
  (∀ (w : CmdWord) (i : Instr), decode w = .ok i → encode i = w)

/-- A few words spelled out from R47 and from the decoding table of spec/95_test_vectors.md section 2.1. -/
def Obligations.SpelledOutWordsDecode : Prop :=
  decode 0b0000000100000000 = .ok .start ∧
  decode 0b0000001001000001 = .ok (.sym 0x41) ∧
  decode 0b0000001011111111 = .ok (.sym 0xFF) ∧
  decode 0b0000001100000000 = .ok .finish ∧
  decode 0x0101 = .error (.illegal 0x0101) ∧
  decode 0x8200 = .error (.illegal 0x8200)

/-! ## The sequencer -/

/-- When the word at the head of the stream decodes to a command, a step is that command on the state with the word
consumed, in every phase; the host's placement of a word is such a head. -/
def Obligations.StepRunsTheDecodedCommand : Prop :=
  (∀ (s : State) (w : CmdWord) (i : Instr) (rest : List HostEvent),
    s.cmd = .word w :: rest → decode w = .ok i → i.wellFormed = true → step s = exec i { s with cmd := rest }) ∧
  (∀ (s : State) (n w : Nat) (i : Instr), decodeTableWord n w = some i → step (s.withFetchWord n w) = exec i s)

/-- R84: the whole of `step(w)`. -/
def Obligations.SequencerExecutesAWord : Prop :=
  ∀ (s : State) (w : CmdWord) (rest : List HostEvent), s.cmd = .word w :: rest →
    let u : State := { s with cmd := rest }
    (s.phase = .fault → step s = .next u) ∧
    (s.phase ≠ .fault →
      (decode w = .error (.illegal w) → step s = .next (raiseError .illegalCommand u)) ∧
      (decode w = .ok .start →
        step s = if s.phase = .idle then .next (startCall u) else .next (raiseError .badSequence u)) ∧
      (∀ b, decode w = .ok (.sym b) →
        step s = if s.phase = .idle then .next (raiseError .badSequence u) else codeSymbol b u) ∧
      (decode w = .ok .finish →
        step s = if s.phase = .idle then .next (raiseError .badSequence u) else .next (finishCall u)))

/-- R43: a step consumes exactly the event at the head of the stream, whatever it does, neither looks at the later
events nor changes them. -/
def Obligations.EventsAreConsumedInOrder : Prop :=
  (∀ (s t : State) (e : HostEvent) (rest : List HostEvent),
    s.cmd = e :: rest → step s = .next t → t.cmd = rest) ∧
  (∀ (s t : State) (e : HostEvent) (rest later : List HostEvent), s.cmd = e :: rest → step s = .next t →
    step { s with cmd := e :: later } = .next { t with cmd := later })

/-- R102: what a command word reports, in the order of the causes, and that the hardware reset overrides everything. -/
def Obligations.CausePriority : Prop :=
  ∀ (s : State) (rest : List HostEvent),
    (∀ w : CmdWord, s.cmd = .word w :: rest →
      (s.phase = .fault → step s = .next { s with cmd := rest }) ∧
      (s.phase ≠ .fault → isLegal w = false →
        ∃ t, step s = .next t ∧ t.err = .illegalCommand ∧ t.phase = .fault) ∧
      (s.phase ≠ .fault → ∀ i, decode w = .ok i →
        ((i = .start ↔ s.phase ≠ .idle) →
          ∃ t, step s = .next t ∧ t.err = .badSequence ∧ t.phase = .fault) ∧
        (i = .finish → s.phase = .opened →
          ∃ t, step s = .next t ∧ t.err = .emptyInput ∧ t.phase = .idle) ∧
        (¬ (i = .start ↔ s.phase ≠ .idle) → ¬ (i = .finish ∧ s.phase = .opened) →
          ∀ t, step s = .next t → t.phase ≠ .fault ∧ t.err = if i = .start then .noError else s.err))) ∧
    (s.cmd = .reset :: rest → step s = .next (hardwareReset { s with cmd := rest }))

/-- R89: the whole transition table of PHASE (a SYM's cell asks that its total is not 0, R72, which every reachable state
meets), and its last sentence: from IDLE, a stream of words ends in IDLE again exactly when it is a concatenation of
calls, and stays out of FAULT exactly when some continuation makes it one. -/
def Obligations.PhaseTransitionTable : Prop :=
  ∀ (s : State) (rest : List HostEvent),
    (∀ w : CmdWord, s.cmd = .word w :: rest →
      let u : State := { s with cmd := rest }
      let ignored : Prop := step s = .next u
      let faults (e : ErrCode) : Prop := step s = .next { u with err := e, phase := .fault }
      match s.phase, decode w with
      | .fault, _ => ignored
      | .idle, .error _ => faults .illegalCommand
      | .opened, .error _ => faults .illegalCommand
      | .coding, .error _ => faults .illegalCommand
      | .idle, .ok .start =>
        ∃ t, step s = .next t ∧ t.phase = .opened ∧ t.out = [] ∧ t.err = .noError ∧ t.done = false ∧
          t.low = 0 ∧ t.range = 0xFFFFFFFF ∧ ∀ i : Fin 257, (entry t.tbl i).toNat = i.val
      | .opened, .ok .start => faults .badSequence
      | .coding, .ok .start => faults .badSequence
      | .idle, .ok (.sym _) => faults .badSequence
      | .opened, .ok (.sym b) =>
        entry s.tbl totalIndex ≠ 0 → ∃ t, step s = .next t ∧ codeSymbol b u = .next t ∧ t.phase = .coding
      | .coding, .ok (.sym b) =>
        entry s.tbl totalIndex ≠ 0 → ∃ t, step s = .next t ∧ codeSymbol b u = .next t ∧ t.phase = .coding
      | .idle, .ok .finish => faults .badSequence
      | .opened, .ok .finish => step s = .next { u with err := .emptyInput, done := true, phase := .idle }
      | .coding, .ok .finish =>
        step s = .next { u with out := s.out ++ bytesMsbFirst s.low, done := true, phase := .idle }) ∧
    (s.cmd = .reset :: rest → ∃ t, step s = .next t ∧ t.phase = .idle) ∧
    (∀ ws : List CmdWord, s.phase = .idle → s.cmd = ws.map HostEvent.word ++ rest →
      ∃ t, runSteps ws.length s = .next t ∧ t.cmd = rest ∧
        (t.phase = .idle ↔ ∃ is : List Instr, ws = is.map encode ∧ streamWellFormed is = true) ∧
        (t.phase ≠ .fault ↔ ∃ is js : List Instr, ws = is.map encode ∧ streamWellFormed (is ++ js) = true))

/-! ## Errors -/

/-- R103, R104: what each cause writes, as the one operation of error entry and as a precise effect of the step: a step
that enters FAULT, or ends a call in phase OPEN, leaves LOW, RANGE, TBL and OUT as they were. -/
def Obligations.ErrorsArePrecise : Prop :=
  (∀ s : State,
    raiseError .emptyInput s = { s with err := .emptyInput, done := true, phase := .idle } ∧
    raiseError .illegalCommand s = { s with err := .illegalCommand, phase := .fault } ∧
    raiseError .badSequence s = { s with err := .badSequence, phase := .fault }) ∧
  (∀ (s t : State) (w : CmdWord) (rest : List HostEvent), s.cmd = .word w :: rest → step s = .next t →
    (t.phase = .fault ∨ (s.phase = .opened ∧ t.phase = .idle)) →
    t.low = s.low ∧ t.range = s.range ∧ t.tbl = s.tbl ∧ t.out = s.out ∧ t.resets = s.resets)

/-- R97: FINISH in phase OPEN reports EmptyInput, emits nothing, touches neither the interval nor the table, and
leaves the block ready for the next START. -/
def Obligations.EmptyInputEndsTheCall : Prop :=
  ∀ s : State, s.phase = .opened →
    ∃ t, exec .finish s = .next t ∧ t = { s with err := .emptyInput, done := true, phase := .idle } ∧
      ∃ v, exec .start t = .next v ∧ v.phase = .opened ∧ v.err = .noError ∧ v.done = false ∧ v.out = [] ∧
        ∀ i : Fin 257, (entry v.tbl i).toNat = i.val

/-- R98: an illegal word in any phase but FAULT writes ERR and PHASE and nothing else. -/
def Obligations.IllegalCommandFaults : Prop :=
  ∀ (s : State) (w : CmdWord) (rest : List HostEvent), s.cmd = .word w :: rest →
    (∀ r ∈ opcodeTable, rowMatches r w = false) → s.phase ≠ .fault →
    step s = .next { s with cmd := rest, err := .illegalCommand, phase := .fault }

/-- R99: START in OPEN or CODING, SYM and FINISH in IDLE write ERR and PHASE and nothing else. -/
def Obligations.BadSequenceFaults : Prop :=
  ∀ (s : State) (i : Instr),
    (i = .start ∧ callOpen s) ∨ ((∃ b, i = .sym b) ∧ s.phase = .idle) ∨ (i = .finish ∧ s.phase = .idle) →
    exec i s = .next { s with err := .badSequence, phase := .fault }

/-- R106: in FAULT every command word, legal or not, is consumed and changes nothing, however many come; only a
reset event leaves FAULT. -/
def Obligations.FaultAbsorbsEveryWord : Prop :=
  (∀ (ws : List CmdWord) (s : State) (rest : List HostEvent), s.phase = .fault →
    s.cmd = ws.map HostEvent.word ++ rest → runSteps ws.length s = .next { s with cmd := rest }) ∧
  (∀ s t : State, s.phase = .fault → step s = .next t → t.phase ≠ .fault →
    ∃ rest, s.cmd = .reset :: rest ∧ t.phase = .idle)

/-- R105: how the block becomes usable again after each cause, and that errors do not nest. -/
def Obligations.RecoveryFromErrors : Prop :=
  (∀ s : State, s.phase = .opened →
    let u : State := { s with err := .emptyInput, done := true, phase := .idle }
    exec .finish s = .next u ∧
    (∃ v, exec .start u = .next v ∧ v.err = .noError ∧ v.done = false ∧ v.phase = .opened) ∧
    (∀ b, exec (.sym b) u = .next { u with err := .badSequence, phase := .fault }) ∧
    exec .finish u = .next { u with err := .badSequence, phase := .fault } ∧
    ∀ (w : CmdWord) (rest : List HostEvent), isLegal w = false →
      step { u with cmd := .word w :: rest } =
        .next { u with cmd := rest, err := .illegalCommand, phase := .fault }) ∧
  (∀ (s t : State), s.phase = .fault → step s = .next t →
    (t.phase = .fault ∧ t.err = s.err) ∨ (∃ rest, s.cmd = .reset :: rest)) ∧
  (∀ (s : State) (ws : List CmdWord) (rest : List HostEvent), s.phase = .fault →
    s.cmd = ws.map HostEvent.word ++ .reset :: rest →
    ∃ t, runSteps (ws.length + 1) s = .next t ∧ t.cmd = rest ∧ t.phase = .idle ∧ t.err = .noError ∧ t.done = false)

/-- R16, and R18 but for its last sentence: the codes of ERR, which events change ERR and DONE, and how. -/
def Obligations.DoneAndErrHaveTheirWriters : Prop :=
  (errCode .noError = 0 ∧ errCode .emptyInput = 1 ∧ errCode .illegalCommand = 2 ∧ errCode .badSequence = 3) ∧
  ∀ (s t : State) (e : HostEvent) (rest : List HostEvent), s.cmd = e :: rest → step s = .next t →
    (t.done ≠ s.done → t.done = true → e = .word 0x0300 ∧ callOpen s) ∧
    (t.done ≠ s.done → t.done = false → e = .reset ∨ (e = .word 0x0100 ∧ s.phase = .idle)) ∧
    (e = .word 0x0300 → callOpen s → t.done = true) ∧
    (e = .reset ∨ (e = .word 0x0100 ∧ s.phase = .idle) → t.done = false ∧ t.err = .noError) ∧
    (t.err ≠ s.err → t.err = .noError → e = .reset ∨ (e = .word 0x0100 ∧ s.phase = .idle)) ∧
    (t.err ≠ s.err → t.err = .emptyInput → e = .word 0x0300 ∧ s.phase = .opened) ∧
    (t.err ≠ s.err → t.err = .illegalCommand → ∃ w, e = .word w ∧ isLegal w = false ∧ s.phase ≠ .fault) ∧
    (t.err ≠ s.err → t.err = .badSequence → ∃ w i, e = .word w ∧ decode w = .ok i ∧
      ((i = .start ∧ callOpen s) ∨ (i ≠ .start ∧ s.phase = .idle)))

/-! ## Reset -/

/-- R111: the reset event, applied in any phase, leaves PHASE IDLE, ERR 0, DONE 0, OUT empty and STATUS 0x00, and whatever it
leaves in LOW, RANGE and TBL is read by no command word before START has written it: a word other than an accepted
START carries any other values there along unread, and START forgets them. -/
def Obligations.HardwareResetLeaves : Prop :=
  ∀ (s : State) (rest : List HostEvent), s.cmd = .reset :: rest →
    ∃ t, step s = .next t ∧ t.phase = .idle ∧ t.err = .noError ∧ t.done = false ∧ t.out = [] ∧ status t = 0x00 ∧
      t.cmd = rest ∧
      ∀ (l r : Word) (tb : Table) (w : CmdWord),
        ∃ v, runWord w t = .next v ∧
          (runWord w { t with low := l, range := r, tbl := tb } = .next v ∨
            (v.phase = .fault ∧
              runWord w { t with low := l, range := r, tbl := tb } = .next { v with low := l, range := r, tbl := tb }))

/-- R112, R91: an open call ends only by FINISH or by the hardware reset, and FAULT is left only by the hardware reset, which
empties OUT. -/
def Obligations.OnlyFinishOrResetEndsACall : Prop :=
  (∀ s t : State, callOpen s → step s = .next t → t.phase = .idle →
    ∃ rest, s.cmd = .word 0x0300 :: rest ∨ (s.cmd = .reset :: rest ∧ t.out = [])) ∧
  (∀ s t : State, s.phase = .fault → step s = .next t → t.phase ≠ .fault →
    ∃ rest, s.cmd = .reset :: rest ∧ t.out = [] ∧ t.phase = .idle)

/-- R28: the value of every item of state after the hardware reset, where the spec gives one, and after a START executed in
phase IDLE. -/
def Obligations.ResetAndStartValues : Prop :=
  (State.reset.out = [] ∧ State.reset.phase = .idle ∧ State.reset.err = .noError ∧ State.reset.done = false ∧
    status State.reset = 0x00) ∧
  (∀ s : State, (hardwareReset s).out = [] ∧ (hardwareReset s).phase = .idle ∧ (hardwareReset s).err = .noError ∧
    (hardwareReset s).done = false ∧ status (hardwareReset s) = 0x00) ∧
  (∀ s : State, s.phase = .idle → ∃ t, exec .start s = .next t ∧ t.low = 0x00000000 ∧ t.range = 0xFFFFFFFF ∧
    (∀ i : Fin 257, (entry t.tbl i).toNat = i.val) ∧ t.out = [] ∧ t.phase = .opened ∧ t.err = .noError ∧
    t.done = false ∧ status t = 0x01)

/-- R27: START overwrites everything an earlier call left, and what a finished call leaves in LOW, RANGE and TBL is read
by no step before the next START rewrites it: two states in IDLE or FAULT that differ only there stay so, or become
the same state. -/
def Obligations.DeadRegistersAreNeverRead : Prop :=
  (∀ s s' : State, s.phase = .idle → s'.phase = .idle →
    ∃ t, exec .start s = .next t ∧ exec .start s' = .next { t with cmd := s'.cmd, resets := s'.resets }) ∧
  (∀ (s : State) (l r : Word) (tb : Table), s.phase = .idle ∨ s.phase = .fault →
    ∃ t, step s = .next t ∧
      (step { s with low := l, range := r, tbl := tb } = .next t ∨
        ((t.phase = .idle ∨ t.phase = .fault) ∧
          step { s with low := l, range := r, tbl := tb } = .next { t with low := l, range := r, tbl := tb })))

/-! ## The commands -/

/-- R85: START in every phase. -/
def Obligations.StartOpensACall : Prop :=
  ∀ s : State,
    (s.phase = .idle → ∃ t, exec .start s = .next t ∧ (∀ i : Fin 257, (entry t.tbl i).toNat = i.val) ∧
      t.low = 0x00000000 ∧ t.range = 0xFFFFFFFF ∧ t.out = [] ∧ t.err = .noError ∧ t.done = false ∧
      t.phase = .opened ∧ t.cmd = s.cmd ∧ t.resets = s.resets) ∧
    (callOpen s → exec .start s = .next { s with err := .badSequence, phase := .fault }) ∧
    (s.phase = .fault → exec .start s = .next s)

/-- The number of iterations of RENORM that entry with RANGE = r gives (R75, the table's second column). -/
def renormCount (r : Word) : Nat :=
  if 65536 < r.toNat then 0 else if 256 ≤ r.toNat then 1 else if 1 ≤ r.toNat then 2 else 3

/-- R86: SYM in every phase. Where it is accepted and the total is not 0 (R72), the interval is narrowed with the old table,
renormalized, and the table is updated and, past the limit, rescaled. -/
def Obligations.SymCodesOneByte : Prop :=
  ∀ (b : Byte) (s : State),
    (callOpen s → entry s.tbl totalIndex ≠ 0 →
      let unit := s.range / entry s.tbl totalIndex
      let low1 := s.low + unit * entry s.tbl (lowIndex b)
      let range1 := unit * (entry s.tbl (highIndex b) - entry s.tbl (lowIndex b))
      let k := renormCount range1
      ∃ t, exec (.sym b) s = .next t ∧
        t.low = low1 <<< (8 * k) ∧
        t.range.toNat = range1.toNat * 256 ^ k + (256 ^ k - 1) ∧
        t.out = s.out ++ (bytesMsbFirst low1).take k ∧
        (∃ u : Table, (∀ i : Fin 257, entry u i = if i.val ≤ b.toNat then entry s.tbl i else entry s.tbl i + 1) ∧
          if 8388608 < (entry u totalIndex).toNat then
            entry t.tbl 0 = entry u 0 ∧
            ∀ i : Fin 256, entry t.tbl i.succ =
              entry t.tbl i.castSucc + (((entry u i.succ - entry u i.castSucc) >>> 1) + 1)
          else t.tbl = u) ∧
        t.phase = .coding ∧ t.err = s.err ∧ t.done = s.done ∧ t.cmd = s.cmd ∧ t.resets = s.resets) ∧
    (s.phase = .idle → exec (.sym b) s = .next { s with err := .badSequence, phase := .fault }) ∧
    (s.phase = .fault → exec (.sym b) s = .next s)

/-- R87: FINISH in every phase. -/
def Obligations.FinishEndsTheCall : Prop :=
  ∀ s : State,
    (s.phase = .coding → exec .finish s = .next { s with
      out := s.out ++ [s.low.extractLsb' 24 8, s.low.extractLsb' 16 8, s.low.extractLsb' 8 8, s.low.extractLsb' 0 8],
      done := true, phase := .idle }) ∧
    (s.phase = .opened → exec .finish s = .next { s with err := .emptyInput, done := true, phase := .idle }) ∧
    (s.phase = .idle → exec .finish s = .next { s with err := .badSequence, phase := .fault }) ∧
    (s.phase = .fault → exec .finish s = .next s)

/-- The frames of the three commands, in every phase: what each leaves unchanged when it answers a next state (the
command rows of the access matrix of R22). A command neither reads nor writes what is the run's and not the block's: with
any other stream and counter it does the same to the block (R7, R10). -/
def Obligations.CommandFrames : Prop :=
  ∀ s t : State,
    (exec .start s = .next t → t.cmd = s.cmd ∧ t.resets = s.resets ∧
      (s.phase ≠ .idle → t.low = s.low ∧ t.range = s.range ∧ t.tbl = s.tbl ∧ t.out = s.out ∧ t.done = s.done)) ∧
    (∀ b, exec (.sym b) s = .next t → t.done = s.done ∧ t.cmd = s.cmd ∧ t.resets = s.resets ∧
      entry t.tbl 0 = entry s.tbl 0 ∧
      (∀ i : Fin 257, i.val ≤ b.toNat → entry t.tbl i = entry s.tbl i ∨
        8388608 < (entry s.tbl totalIndex + 1).toNat) ∧
      (s.phase ≠ .idle → t.err = s.err) ∧
      (∃ bs, t.out = s.out ++ bs ∧ bs.length ≤ 3) ∧
      (¬ callOpen s → t.low = s.low ∧ t.range = s.range ∧ t.tbl = s.tbl ∧ t.out = s.out)) ∧
    (exec .finish s = .next t → t.low = s.low ∧ t.range = s.range ∧ t.tbl = s.tbl ∧ t.cmd = s.cmd ∧
      t.resets = s.resets ∧ (s.phase = .coding → t.err = s.err) ∧ (s.phase ≠ .coding → t.out = s.out) ∧
      (¬ callOpen s → t.done = s.done)) ∧
    (∀ i : Instr, exec i s = .next t → ∀ (es : List HostEvent) (n : Nat),
      exec i { s with cmd := es, resets := n } = .next { t with cmd := es, resets := n })

/-! ## The frequency engine -/

/-- R55: TINIT writes `i` to every entry whatever the table held, gives every symbol frequency 1 and the total 256,
writes nothing else, and is the loop of R55. -/
def Obligations.TinitFillsTheTable : Prop :=
  ∀ s : State, tinit s = tinitLoop s ∧ (∀ i : Fin 257, (memRead i (tinit s)).toNat = i.val) ∧
    (∀ b : Byte, freq (tinit s).tbl b = 1) ∧ memRead totalIndex (tinit s) = 256 ∧
    tinit s = { s with tbl := (tinit s).tbl }

/-- R56: what LOOKUP returns, and the relations between the results in every state that meets the invariant while a call
is open. -/
def Obligations.LookupReturnsTheBounds : Prop :=
  ∀ (b : Byte) (s : State),
    ((lookup b s).total = memRead 256 s ∧ (lookup b s).lowSym = memRead (lowIndex b) s ∧
      (lookup b s).highSym = memRead (highIndex b) s ∧
      (lowIndex b).val = b.toNat ∧ (highIndex b).val = b.toNat + 1) ∧
    (b = 255 → (lookup b s).highSym = (lookup b s).total) ∧
    (callOpen s → CallInvariant s →
      (lookup b s).lowSym < (lookup b s).highSym ∧ (lookup b s).highSym ≤ (lookup b s).total ∧
      (lookup b s).highSym - (lookup b s).lowSym = freq s.tbl b ∧ 1 ≤ (freq s.tbl b).toNat ∧
      256 ≤ (lookup b s).total.toNat ∧ (lookup b s).total.toNat ≤ 8388608 ∧
      (b = 0 → (lookup b s).lowSym = 0))

/-- R57: UPDATE counts one occurrence: the entries, the frequencies and the total afterwards, nothing else written, no
wrap below the limit, and the loop of R57. -/
def Obligations.UpdateCountsOneOccurrence : Prop :=
  ∀ (b : Byte) (s : State),
    update b s = updateLoop b s ∧
    (∀ i : Fin 257, memRead i (update b s) = if i.val ≤ b.toNat then memRead i s else memRead i s + 1) ∧
    freq (update b s).tbl b = freq s.tbl b + 1 ∧
    (∀ c : Byte, c ≠ b → freq (update b s).tbl c = freq s.tbl c) ∧
    memRead totalIndex (update b s) = memRead totalIndex s + 1 ∧
    memRead 0 (update b s) = memRead 0 s ∧
    (∀ i : Fin 257, (memRead i s).toNat ≤ 8388608 → b.toNat < i.val →
      (memRead i (update b s)).toNat = (memRead i s).toNat + 1) ∧
    update b s = { s with tbl := (update b s).tbl }

/-- R58: RESCALE_CHECK is the strict unsigned comparison with 2^23, and a SYM rescales exactly when the check is true after
its update; START and FINISH never do. -/
def Obligations.RescaleCheckIsStrict : Prop :=
  (∀ s : State, rescaleCheck s = true ↔ 8388608 < (memRead totalIndex s).toNat) ∧
  (∀ (b : Byte) (s : State), callOpen s → memRead totalIndex s ≠ 0 →
    ∃ t, exec (.sym b) s = .next t ∧
      t.tbl = if rescaleCheck (update b s) then (rescale (update b s)).tbl else (update b s).tbl) ∧
  (∀ s t : State, exec .start s = .next t → t.tbl = tableInit ∨ t.tbl = s.tbl) ∧
  (∀ s t : State, exec .finish s = .next t → t.tbl = s.tbl)

/-- R59: RESCALE as the function of the old table, as the in-place loop, on the frequencies, and touching nothing
else. -/
def Obligations.RescaleHalvesTheModel : Prop :=
  ∀ s : State,
    rescale s = rescaleLoop s ∧
    memRead 0 (rescale s) = memRead 0 s ∧
    (∀ i : Fin 256, memRead i.succ (rescale s) =
      memRead i.castSucc (rescale s) + (((memRead i.succ s - memRead i.castSucc s) >>> 1) + 1)) ∧
    (∀ b : Byte, (freq (rescale s).tbl b).toNat = (freq s.tbl b).toNat / 2 + 1) ∧
    rescale s = { s with tbl := (rescale s).tbl }

/-- The number of symbols whose frequency is odd (R60). -/
def oddCount (t : Table) : Nat :=
  (Finset.univ.filter (fun i : Fin 256 => (freq t (BitVec.ofFin i)).toNat % 2 = 1)).card

/-- R60: the postconditions of RESCALE for a table with T0 and STRICT. -/
def Obligations.RescalePostconditions : Prop :=
  ∀ t : Table, tableZero t → tableStrict t →
    tableZero (tableRescale t) ∧
    tableStrict (tableRescale t) ∧
    (∀ b : Byte, (freq (tableRescale t) b).toNat = (freq t b).toNat / 2 + 1) ∧
    oddCount t ≤ (entry t totalIndex).toNat ∧ 2 ∣ (entry t totalIndex).toNat - oddCount t ∧
    (entry (tableRescale t) totalIndex).toNat = ((entry t totalIndex).toNat - oddCount t) / 2 + 256 ∧
    ((entry t totalIndex).toNat = 8388609 →
      oddCount t % 2 = 1 ∧ 1 ≤ oddCount t ∧ oddCount t ≤ 255 ∧
      4194433 ≤ (entry (tableRescale t) totalIndex).toNat ∧ (entry (tableRescale t) totalIndex).toNat ≤ 4194560) ∧
    (∀ b c : Byte, (freq t b).toNat ≤ (freq t c).toNat →
      (freq (tableRescale t) b).toNat ≤ (freq (tableRescale t) c).toNat)

/-- R61: RESCALE runs only at the total 2^23 + 1; without a rescale the total grows by one a symbol, so the first
one of a call comes in the SYM of index 8388352, whatever the symbols; the total after it lies in 4194433..4194560, so
the next comes 8388609 minus it symbols later, that is 4194049 to 4194176. -/
def Obligations.RescaleTiming : Prop :=
  (∀ (b : Byte) (s : State), callOpen s → CallInvariant s → rescaleCheck (update b s) = true →
    (memRead totalIndex (update b s)).toNat = 8388609) ∧
  (∀ (s : State) (x : List Byte), s.phase = .idle → x.length ≤ 8388352 →
    ∃ t, execAll (.start :: x.map Instr.sym) s = .next t ∧ (memRead totalIndex t).toNat = 256 + x.length ∧
      ∀ b, rescaleCheck (update b t) = true ↔ x.length = 8388352) ∧
  (∀ (s : State) (x : List Byte), callOpen s → CallInvariant s →
    (memRead totalIndex s).toNat + x.length ≤ 8388608 →
    ∃ t, execAll (x.map Instr.sym) s = .next t ∧
      (memRead totalIndex t).toNat = (memRead totalIndex s).toNat + x.length ∧
      ∀ b, rescaleCheck (update b t) = true ↔ x.length + 1 = 8388609 - (memRead totalIndex s).toNat) ∧
  (∀ (b : Byte) (s t : State), callOpen s → CallInvariant s → rescaleCheck (update b s) = true →
    exec (.sym b) s = .next t →
    4194433 ≤ (memRead totalIndex t).toNat ∧ (memRead totalIndex t).toNat ≤ 4194560 ∧
    4194049 ≤ 8388609 - (memRead totalIndex t).toNat ∧ 8388609 - (memRead totalIndex t).toNat ≤ 4194176)

/-- R62: a table with T0 and STRICT is the running sum of its frequencies, each at least 1 and an exact difference; the
frequencies determine the table. -/
def Obligations.FrequenciesDetermineTheTable : Prop :=
  (∀ t : Table, tableZero t → tableStrict t →
    (∀ b : Byte, (freq t b).toNat = (entry t (highIndex b)).toNat - (entry t (lowIndex b)).toNat ∧
      1 ≤ (freq t b).toNat) ∧
    (∀ i : Fin 257, (entry t i).toNat = ∑ j ∈ Finset.range i.val, (freq t (BitVec.ofNat 8 j)).toNat) ∧
    (entry t totalIndex).toNat = ∑ j ∈ Finset.range 256, (freq t (BitVec.ofNat 8 j)).toNat) ∧
  (∀ t u : Table, tableZero t → tableZero u → (∀ b : Byte, freq t b = freq u b) → t = u)

/-! ## The interval arithmetic -/

/-- R65: IINIT. -/
def Obligations.IinitSetsTheInterval : Prop :=
  ∀ s : State, iinit s = { s with low := 0x00000000, range := 0xFFFFFFFF }

/-- R66: DIVIDE is the unsigned floor of RANGE over TOTAL, with its bounds while a call is open. -/
def Obligations.DivideFloors : Prop :=
  (∀ (total : Word) (s : State), total ≠ 0 →
    ∃ unit, divide total s = some unit ∧ unit.toNat = s.range.toNat / total.toNat) ∧
  (∀ s : State, callOpen s → CallInvariant s →
    ∃ unit, divide (memRead totalIndex s) s = some unit ∧ unit.toNat ≤ 0x00FFFFFF ∧
      unit.toNat * (memRead totalIndex s).toNat ≤ s.range.toNat ∧
      (1 ≤ unit.toNat ↔ (memRead totalIndex s).toNat ≤ s.range.toNat)) ∧
  (∀ s : State, s.range = 0xFFFFFFFF → divide 256 s = some 0x00FFFFFF)

/-- R72: in every reachable state with a call open, that is wherever SYM executes DIVIDE, the divisor is at least 256 and
DIVIDE has a result, so that no event makes a reachable state stop; where the divisor is zero DIVIDE has no result and
SYM ends in a fault or a refusal, never with a value. -/
def Obligations.DivisionByZeroIsUnreachable : Prop :=
  (∀ s : State, Reachable s → callOpen s →
    256 ≤ (memRead totalIndex s).toNat ∧ ∃ unit, divide (memRead totalIndex s) s = some unit) ∧
  (∀ s : State, Reachable s → ∃ t, step s = .next t) ∧
  (∀ (b : Byte) (s : State), CallInvariant s → ∃ t, exec (.sym b) s = .next t) ∧
  (∀ s : State, divide 0 s = none) ∧
  (∀ (b : Byte) (s : State), callOpen s → memRead totalIndex s = 0 →
    (∃ f, exec (.sym b) s = .fault f) ∨ (∃ r, exec (.sym b) s = .refused r))

/-- R67: NARROW replaces the interval by the symbol's sub-interval, with its relations while a call is open. -/
def Obligations.NarrowReplacesTheInterval : Prop :=
  (∀ (unit lowSym highSym : Word) (s : State), narrow unit lowSym highSym s =
    { s with low := s.low + unit * lowSym, range := unit * (highSym - lowSym) }) ∧
  (∀ (b : Byte) (s : State), callOpen s → CallInvariant s →
    let unit := s.range / memRead totalIndex s
    let t := narrow unit (memRead (lowIndex b) s) (memRead (highIndex b) s) s
    unit.toNat * (memRead (lowIndex b) s).toNat + unit.toNat * (freq s.tbl b).toNat =
      unit.toNat * (memRead (highIndex b) s).toNat ∧
    unit.toNat * (memRead (highIndex b) s).toNat ≤ unit.toNat * (memRead totalIndex s).toNat ∧
    unit.toNat * (memRead totalIndex s).toNat ≤ s.range.toNat ∧
    t.range.toNat = unit.toNat * (freq s.tbl b).toNat ∧
    t.range ≤ s.range ∧ unit ≤ t.range ∧ (t.range = 0 ↔ unit = 0) ∧
    (b = 0 → t.low = s.low) ∧ (unit = 0 → t.low = s.low))

/-- R68: both products of NARROW are exact while a call is open and the invariant holds; elsewhere the product truncates
modulo 2^32. -/
def Obligations.ProductsNeverOverflow : Prop :=
  (∀ a b : Word, (mul32 a b).toNat = a.toNat * b.toNat % 2 ^ 32) ∧
  ∀ (b : Byte) (s : State), callOpen s → CallInvariant s →
    let unit := s.range / memRead totalIndex s
    (mul32 unit (memRead (lowIndex b) s)).toNat = unit.toNat * (memRead (lowIndex b) s).toNat ∧
    (mul32 unit (sub32 (memRead (highIndex b) s) (memRead (lowIndex b) s))).toNat =
      unit.toNat * ((memRead (highIndex b) s).toNat - (memRead (lowIndex b) s).toNat) ∧
    unit.toNat * (memRead (lowIndex b) s).toNat ≤ s.range.toNat ∧
    unit.toNat * ((memRead (highIndex b) s).toNat - (memRead (lowIndex b) s).toNat) ≤ s.range.toNat

/-- R69: the addition to LOW is taken modulo 2^32 and the carry reaches nothing: neither OUT nor STATUS nor the table; the
input 41 00 41 loses one at its third symbol. -/
def Obligations.CarryOutOfLowIsLost : Prop :=
  (∀ (unit lowSym highSym : Word) (s : State),
    let t := narrow unit lowSym highSym s
    t.low.toNat = (s.low.toNat + (mul32 unit lowSym).toNat) % 2 ^ 32 ∧
    t.out = s.out ∧ status t = status s ∧ t.tbl = s.tbl ∧ t.range = unit * (highSym - lowSym)) ∧
  (∀ s : State, s.phase = .idle →
    ∃ t v, execAll [.start, .sym 0x41, .sym 0x00] s = .next t ∧ exec (.sym 0x41) t = .next v ∧
      t.low = 0xFFFFBF00 ∧ t.out = [0x40] ∧ divide (memRead totalIndex t) t = some 64774 ∧
      memRead (lowIndex 0x41) t = 66 ∧ t.low.toNat + 64774 * 66 = 0x10040FA8C ∧ v.low = 0x0040FA8C ∧ v.out = [0x40])

/-- R70, what it says of one SYM: when RANGE is below the total the unit is zero, LOW gives three bytes, whatever the symbol
is, RANGE becomes 0x00FFFFFF and no error is raised. -/
def Obligations.ZeroUnitEmitsThreeBytesOfLow : Prop :=
  ∀ (b : Byte) (s : State), callOpen s → s.range < memRead totalIndex s →
    divide (memRead totalIndex s) s = some 0 ∧
    ∃ t, exec (.sym b) s = .next t ∧
      t.out = s.out ++ [s.low.extractLsb' 24 8, s.low.extractLsb' 16 8, s.low.extractLsb' 8 8] ∧
      t.low = s.low.extractLsb' 0 8 ++ (0 : BitVec 24) ∧ t.range = 0x00FFFFFF ∧
      t.err = s.err ∧ t.done = s.done ∧ t.phase = .coding ∧
      t.tbl = if rescaleCheck (update b s) then (rescale (update b s)).tbl else (update b s).tbl

/-- R71: for the SYM of index n <= 65281 of a call the unit is at least 1 and the new RANGE is at least 1. -/
def Obligations.UnitIsNonZeroInShortCalls : Prop :=
  ∀ (s : State) (x : List Byte), s.phase = .idle → x.length ≤ 65281 →
    ∃ t, execAll (.start :: x.map Instr.sym) s = .next t ∧
      ∀ b : Byte, ∃ unit, divide (lookup b t).total t = some unit ∧ 1 ≤ unit.toNat ∧
        1 ≤ (narrow unit (lookup b t).lowSym (lookup b t).highSym t).range.toNat

/-! ## The normalizer -/

/-- R73: RENORM is the while loop: it tests before every iteration, runs RENORM_STEP while RANGE <= 65536, and stops only
with RANGE above it; it runs at most three times and writes nothing but LOW, RANGE and OUT. -/
def Obligations.RenormIsTheWhileLoop : Prop :=
  ∀ s : State,
    (65536 < s.range.toNat → renorm s = s) ∧
    (s.range.toNat ≤ 65536 → renorm s = renorm (renormStep s)) ∧
    65536 < (renorm s).range.toNat ∧
    (∃ k, k ≤ 3 ∧ renorm s = renormStep^[k] s ∧ ∀ j, j < k → (renormStep^[j] s).range.toNat ≤ 65536) ∧
    renorm s = { s with low := (renorm s).low, range := (renorm s).range, out := (renorm s).out }

/-- R74, R76: one iteration: the byte emitted, the shift of LOW, the widening of RANGE, which loses no bit inside RENORM. -/
def Obligations.RenormStepShiftsOneByteOut : Prop :=
  ∀ s : State,
    renormStep s = { s with
      out := s.out ++ [s.low.extractLsb' 24 8], low := s.low <<< 8, range := (s.range <<< 8) ||| 0x000000FF } ∧
    (renormStep s).low = s.low.extractLsb' 0 24 ++ (0 : Byte) ∧
    (renormStep s).low.toNat = s.low.toNat * 256 % 2 ^ 32 ∧
    (renormStep s).range.toNat = (s.range.toNat * 256 + 255) % 2 ^ 32 ∧
    (s.range ≤ Config.bottom →
      (renormStep s).range.toNat = s.range.toNat * 256 + 255 ∧ s.range.toNat * 256 + 255 ≤ 16777471 ∧
      (shl8 s.range).toNat = s.range.toNat * 256)

/-- R75: the iteration count, the bytes, LOW and RANGE at exit, row by row, and LOW and RANGE after j iterations. -/
def Obligations.RenormIterationTable : Prop :=
  ∀ s : State,
    (65537 ≤ s.range.toNat → renorm s = s) ∧
    (256 ≤ s.range.toNat → s.range.toNat ≤ 65536 →
      (renorm s).out = s.out ++ [s.low.extractLsb' 24 8] ∧
      (renorm s).low = s.low.extractLsb' 0 24 ++ (0 : BitVec 8) ∧
      (renorm s).range.toNat = s.range.toNat * 256 + 255 ∧
      65791 ≤ (renorm s).range.toNat ∧ (renorm s).range.toNat ≤ 16777471) ∧
    (1 ≤ s.range.toNat → s.range.toNat ≤ 255 →
      (renorm s).out = s.out ++ [s.low.extractLsb' 24 8, s.low.extractLsb' 16 8] ∧
      (renorm s).low = s.low.extractLsb' 0 16 ++ (0 : BitVec 16) ∧
      (renorm s).range.toNat = s.range.toNat * 65536 + 65535 ∧
      131071 ≤ (renorm s).range.toNat ∧ (renorm s).range.toNat ≤ 16777215) ∧
    (s.range.toNat = 0 →
      (renorm s).out = s.out ++ [s.low.extractLsb' 24 8, s.low.extractLsb' 16 8, s.low.extractLsb' 8 8] ∧
      (renorm s).low = s.low.extractLsb' 0 8 ++ (0 : BitVec 24) ∧
      (renorm s).range.toNat = 16777215) ∧
    (∀ j : Nat, (renormStep^[j] s).low.toNat = s.low.toNat * 256 ^ j % 2 ^ 32 ∧
      (renormStep^[j] s).range.toNat = (s.range.toNat * 256 ^ j + (256 ^ j - 1)) % 2 ^ 32)

/-- R77: after RENORM, RANGE > 65536; if it made k >= 1 iterations then RANGE <= 0x010000FF and the low 8k bits of LOW are
zero. -/
def Obligations.RenormPostcondition : Prop :=
  ∀ s : State,
    65536 < (renorm s).range.toNat ∧
    ∀ k : Nat, 1 ≤ k → (renorm s).out.length = s.out.length + k →
      (renorm s).range.toNat ≤ 0x010000FF ∧ (renorm s).low.toNat % 2 ^ (8 * k) = 0

/-! ## The byte packer -/

/-- R79, R80: EMIT appends one byte and FLUSH the four bytes of LOW, most significant first; neither writes anything
else. -/
def Obligations.BytePackerAppends : Prop :=
  (∀ (b : Byte) (s : State), emit b s = { s with out := s.out ++ [b] }) ∧
  (∀ s : State, flush s = { s with
    out := s.out ++ [s.low.extractLsb' 24 8, s.low.extractLsb' 16 8, s.low.extractLsb' 8 8, s.low.extractLsb' 0 8] }) ∧
  (∀ s : State, (((s.low.extractLsb' 24 8 ++ s.low.extractLsb' 16 8 : BitVec 16) ++ s.low.extractLsb' 8 8 :
    BitVec 24) ++ s.low.extractLsb' 0 8 : BitVec 32) = s.low)

/-! ## Memory and output -/

/-- R31: reading an entry gives the value last written to it, the other entries are not changed by a write, and a write
changes nothing but TBL. -/
def Obligations.TableReadsWhatWasWritten : Prop :=
  ∀ (i j : Fin 257) (v : Word) (s : State),
    memRead i (memWrite i v s) = v ∧ (j ≠ i → memRead j (memWrite i v s) = memRead j s) ∧
    memWrite i v s = { s with tbl := (memWrite i v s).tbl }

/-- R33, R14: OUT is append-only but for the START that opens a call and the reset, and never read: with any other record in its
place every command does the same and appends the same bytes. -/
def Obligations.OutIsAppendOnlyAndNeverRead : Prop :=
  (∀ (s t : State) (w : CmdWord) (rest : List HostEvent), s.cmd = .word w :: rest → step s = .next t →
    (w = 0x0100 ∧ s.phase = .idle ∧ t.out = []) ∨ ∃ bs, t.out = s.out ++ bs ∧ bs.length ≤ 4) ∧
  (∀ (s t : State) (i : Instr), exec i s = .next t → ¬ (i = .start ∧ s.phase = .idle) →
    ∃ bs, t.out = s.out ++ bs ∧ ∀ o : List Byte, exec i { s with out := o } = .next { t with out := o ++ bs }) ∧
  (∀ (s t : State) (o : List Byte), exec .start s = .next t → s.phase = .idle →
    exec .start { s with out := o } = .next t) ∧
  (∀ s t : State, exec .start s = .next t → s.phase = .idle → t.out = [])

/-! ## Invariants -/

/-- From every state that meets the invariant of an open call (T0, STRICT, TOTAL, RANGE) a step answers a next state that
meets it: the block has no arithmetic fault. -/
def Obligations.StepKeepsTheCallInvariant : Prop :=
  ∀ s : State, CallInvariant s → ∃ t, step s = .next t ∧ CallInvariant t

/-- The state after reset meets the invariant, and so does every state the reset event leaves. -/
def Obligations.ResetMeetsTheCallInvariant : Prop :=
  CallInvariant State.reset ∧ ∀ s : State, CallInvariant (hardwareReset s)

/-- R23, R24: from the START after a hardware reset on, whatever words come, `T[0] = 0` and the table is strictly
increasing; at the points inside a SYM too, after UPDATE and after RESCALE. -/
def Obligations.TableStaysStrictOnceInitialised : Prop :=
  ∀ s : State, InitialisedSinceReset s →
    tableZero s.tbl ∧ tableStrict s.tbl ∧ (∀ b : Byte, 1 ≤ (freq s.tbl b).toNat) ∧
    ∀ b : Byte, callOpen s → tableZero (update b s).tbl ∧ tableStrict (update b s).tbl ∧
      tableZero (rescale (update b s)).tbl ∧ tableStrict (rescale (update b s)).tbl

/-- R25, R26: in every reachable state in which a call is open, 256 <= T[256] <= 2^23 and RANGE > 2^16; inside a SYM the total is
at most 2^23 + 1; every entry is below 2^24 and no increment wraps. -/
def Obligations.TotalAndRangeStayInBounds : Prop :=
  ∀ s : State, Reachable s → callOpen s →
    256 ≤ (memRead totalIndex s).toNat ∧ (memRead totalIndex s).toNat ≤ 2 ^ 23 ∧
    65537 ≤ s.range.toNat ∧ s.range.toNat ≤ 0xFFFFFFFF ∧
    (∀ (b : Byte), (memRead totalIndex (update b s)).toNat ≤ 2 ^ 23 + 1 ∧
      ∀ i : Fin 257, (memRead i s).toNat < 2 ^ 24 ∧ (memRead i (update b s)).toNat < 2 ^ 24 ∧
        (add32 (memRead i s) 1).toNat = (memRead i s).toNat + 1)

/-- In phase OPEN nothing has been coded: an invariant every step keeps, and which holds after reset. -/
def Obligations.OpenPhaseIsFresh : Prop :=
  let fresh (s : State) : Prop := s.phase = .opened →
    s.out = [] ∧ s.err = .noError ∧ s.done = false ∧ s.low = 0 ∧ s.range = 0xFFFFFFFF ∧
      ∀ i : Fin 257, (memRead i s).toNat = i.val
  fresh State.reset ∧ ∀ s t : State, fresh s → step s = .next t → fresh t

/-- STATUS is {000, DONE, ERR, PHASE} (R19), and the values it can show are the nine of spec/95_test_vectors.md section 2.9:
true after reset, and kept by every step. -/
def Obligations.StatusShowsNineValues : Prop :=
  let nine : List (BitVec 8) := [0x00, 0x01, 0x02, 0x10, 0x14, 0x0B, 0x0F, 0x1B, 0x1F]
  (∀ s : State, (status s).extractLsb' 0 2 = phaseCode s.phase ∧ (status s).extractLsb' 2 2 = errCode s.err ∧
    (status s).extractLsb' 4 1 = BitVec.ofBool s.done ∧ (status s).extractLsb' 5 3 = (0 : BitVec 3)) ∧
  status State.reset ∈ nine ∧ ∀ s t : State, status s ∈ nine → step s = .next t → status t ∈ nine

/-! ## Calls -/

/-- R88: the command form and the function form of COMPRESS agree, from any state in IDLE and with anything after
the call in the stream. -/
def Obligations.CommandsAgreeWithCompress : Prop :=
  ∀ (s : State) (x : List Byte) (rest : List HostEvent), s.phase = .idle → s.cmd = compressStream x ++ rest →
    ∃ t, runSteps (x.length + 2) s = .next t ∧ t.cmd = rest ∧ t.phase = .idle ∧ t.done = true ∧
      match compress x with
      | .ok o => x ≠ [] ∧ t.err = .noError ∧ t.out = o
      | .error e => x = [] ∧ e = .emptyInput ∧ t.err = .emptyInput ∧ t.out = []

/-- R81: the length of the output of a call is the sum of the iterations of its symbols plus four; the first symbol makes none,
none makes more than three, and in a call of at most 65282 symbols none makes more than two; one symbol gives the four
bytes of b * 0x00FFFFFF. -/
def Obligations.OutputLength : Prop :=
  (∀ (s : State) (x : List Byte), s.phase = .idle → x ≠ [] →
    ∃ ks : List Nat, ks.length = x.length ∧ ks.head? = some 0 ∧ (∀ k ∈ ks, k ≤ 3) ∧
      (x.length ≤ 65282 → ∀ k ∈ ks, k ≤ 2) ∧
      (∀ j, j < x.length → ∃ u v, execAll (.start :: (x.take j).map Instr.sym) s = .next u ∧
        execAll (.start :: (x.take (j + 1)).map Instr.sym) s = .next v ∧
        v.out.length = u.out.length + ks.getD j 0) ∧
      ∃ t, execAll (compressExpansion x) s = .next t ∧ t.out.length = ks.sum + 4 ∧
        4 ≤ t.out.length ∧ t.out.length ≤ 3 * (x.length - 1) + 4) ∧
  (∀ b : Byte, compress [b] = .ok (bytesMsbFirst (symbolValue b * 0x00FFFFFF)))

/-- R90: totality, length, the prefix property, adaptivity, and independence of what came before. -/
def Obligations.CompressProperties : Prop :=
  (∀ x : List Byte, x ≠ [] → ∃ o, compress x = .ok o ∧ 4 ≤ o.length ∧ o.length ≤ 3 * (x.length - 1) + 4) ∧
  compress [] = .error .emptyInput ∧
  (∀ (x y o o' : List Byte), x ≠ [] → compress x = .ok o → compress (x ++ y) = .ok o' →
    o.take (o.length - 4) <+: o') ∧
  compress [0x41, 0x41, 0x41] ≠ compress [0x41, 0x00, 0x41] ∧
  (∀ (s : State) (x o : List Byte), s.phase = .idle → compress x = .ok o →
    ∃ t, execAll (compressExpansion x) s = .next t ∧ t.out = o)

/-- R83: what a call leaves in OUT, and in every other item of the block, is a function of its symbols alone: two instances
in IDLE, whatever else they hold, end the same call in the same state but for the model's own counter of resets. -/
def Obligations.CallResultDependsOnSymbolsOnly : Prop :=
  ∀ (s s' : State) (x : List Byte) (rest : List HostEvent), s.phase = .idle → s'.phase = .idle →
    s.cmd = compressStream x ++ rest → s'.cmd = compressStream x ++ rest →
    ∃ t, runSteps (x.length + 2) s = .next t ∧ runSteps (x.length + 2) s' = .next { t with resets := s'.resets }

/-- R92: what STATUS shows after a call, what OUT then holds, and what each value means. -/
def Obligations.StatusTellsTheResult : Prop :=
  (∀ (s : State) (x : List Byte), s.phase = .idle →
    ∃ u t, execAll (.start :: x.map Instr.sym) s = .next u ∧ execAll (compressExpansion x) s = .next t ∧
      (x = [] → status t = 0x14 ∧ t.out = []) ∧
      (x ≠ [] → status t = 0x10 ∧ t.out = u.out ++ bytesMsbFirst u.low)) ∧
  (∀ s : State,
    (status s = 0x10 ↔ s.done = true ∧ s.err = .noError ∧ s.phase = .idle) ∧
    (status s = 0x14 ↔ s.done = true ∧ s.err = .emptyInput ∧ s.phase = .idle) ∧
    ((status s).extractLsb' 0 2 = 3 ↔ s.phase = .fault))

/-- Instances are isolated: under any schedule each instance ends where its own steps alone take it (spec/20_memory.md section 6).
-/
def Obligations.InstancesAreIsolated : Prop :=
  ∀ (ks : List Nat) (bank bank' : List State), runSchedule ks bank = some bank' →
    bank'.length = bank.length ∧
    ∀ (k : Nat) (s : State), bank[k]? = some s → ∃ t, bank'[k]? = some t ∧ runSteps (ks.count k) s = .next t

/-- The assembled form of a command line is its word, `.word` gives any word, `RESET` the reset event and COMPRESS its expansion
(R53 and the syntax table of spec/30_encoding.md section 5); that operands with no comma between them are refused and that
`.word` takes a decimal number is the model's choice (log entry 18). -/
def Obligations.AssemblerGivesTheWords : Prop :=
  (∀ x : List Byte, assembleLine (.compress x) =
    .word 0x0100 :: (x.map (fun b => HostEvent.word (0x0200 + b.setWidth 16)) ++ [.word 0x0300])) ∧
  parseLine ['S', 'T', 'A', 'R', 'T'] = some (.command .start) ∧
  parseLine ['S', 'Y', 'M', ' ', '0', 'x', '4', '1', ' ', ';', ' ', 'A'] = some (.command (.sym 0x41)) ∧
  parseLine ['S', 'Y', 'M', ' ', '2', '5', '6'] = none ∧
  parseLine ['.', 'w', 'o', 'r', 'd', ' ', '0', 'x', '0', '4', '0', '0'] = some (.rawWord 0x0400) ∧
  parseLine ['C', 'O', 'M', 'P', 'R', 'E', 'S', 'S', ' ', '1', ',', ' ', '2'] = some (.compress [1, 2]) ∧
  parseLine ['C', 'O', 'M', 'P', 'R', 'E', 'S', 'S', ' ', '1', ' ', '2'] = none ∧
  parseLine ['.', 'w', 'o', 'r', 'd', ' ', '2', '5', '6'] = some (.rawWord 0x0100)
end

