-- ==== Sys2Proof/Laws/State.lean ====
section
/-! SUPPORT. One lemma per field of State per register write: what the field reads after the write. -/

namespace Sys2Proof.Machine

/-- Two states with the same seven items of the block, the same stream and the same counter are the same state. -/
theorem state_ext {s t : State} (hl : s.low = t.low) (hr : s.range = t.range) (ht : s.tbl = t.tbl) (ho : s.out = t.out)
    (hp : s.phase = t.phase) (he : s.err = t.err) (hd : s.done = t.done) (hc : s.cmd = t.cmd)
    (hn : s.resets = t.resets) : s = t := by
  rcases s with ⟨⟨⟩, _, _⟩; rcases t with ⟨⟨⟩, _, _⟩; simp_all

/-! ### `setLow` -/

@[simp] theorem setLow_low (v : Word) (s : State) : (setLow v s).low = v := rfl
@[simp] theorem setLow_range (v : Word) (s : State) : (setLow v s).range = s.range := rfl
@[simp] theorem setLow_tbl (v : Word) (s : State) : (setLow v s).tbl = s.tbl := rfl
@[simp] theorem setLow_out (v : Word) (s : State) : (setLow v s).out = s.out := rfl
@[simp] theorem setLow_phase (v : Word) (s : State) : (setLow v s).phase = s.phase := rfl
@[simp] theorem setLow_err (v : Word) (s : State) : (setLow v s).err = s.err := rfl
@[simp] theorem setLow_done (v : Word) (s : State) : (setLow v s).done = s.done := rfl
@[simp] theorem setLow_cmd (v : Word) (s : State) : (setLow v s).cmd = s.cmd := rfl
@[simp] theorem setLow_resets (v : Word) (s : State) : (setLow v s).resets = s.resets := rfl

/-! ### `setRange` -/

@[simp] theorem setRange_low (v : Word) (s : State) : (setRange v s).low = s.low := rfl
@[simp] theorem setRange_range (v : Word) (s : State) : (setRange v s).range = v := rfl
@[simp] theorem setRange_tbl (v : Word) (s : State) : (setRange v s).tbl = s.tbl := rfl
@[simp] theorem setRange_out (v : Word) (s : State) : (setRange v s).out = s.out := rfl
@[simp] theorem setRange_phase (v : Word) (s : State) : (setRange v s).phase = s.phase := rfl
@[simp] theorem setRange_err (v : Word) (s : State) : (setRange v s).err = s.err := rfl
@[simp] theorem setRange_done (v : Word) (s : State) : (setRange v s).done = s.done := rfl
@[simp] theorem setRange_cmd (v : Word) (s : State) : (setRange v s).cmd = s.cmd := rfl
@[simp] theorem setRange_resets (v : Word) (s : State) : (setRange v s).resets = s.resets := rfl

/-! ### `setTbl` -/

@[simp] theorem setTbl_low (t : Table) (s : State) : (setTbl t s).low = s.low := rfl
@[simp] theorem setTbl_range (t : Table) (s : State) : (setTbl t s).range = s.range := rfl
@[simp] theorem setTbl_tbl (t : Table) (s : State) : (setTbl t s).tbl = t := rfl
@[simp] theorem setTbl_out (t : Table) (s : State) : (setTbl t s).out = s.out := rfl
@[simp] theorem setTbl_phase (t : Table) (s : State) : (setTbl t s).phase = s.phase := rfl
@[simp] theorem setTbl_err (t : Table) (s : State) : (setTbl t s).err = s.err := rfl
@[simp] theorem setTbl_done (t : Table) (s : State) : (setTbl t s).done = s.done := rfl
@[simp] theorem setTbl_cmd (t : Table) (s : State) : (setTbl t s).cmd = s.cmd := rfl
@[simp] theorem setTbl_resets (t : Table) (s : State) : (setTbl t s).resets = s.resets := rfl

/-! ### `setOut` -/

@[simp] theorem setOut_low (bs : List Byte) (s : State) : (setOut bs s).low = s.low := rfl
@[simp] theorem setOut_range (bs : List Byte) (s : State) : (setOut bs s).range = s.range := rfl
@[simp] theorem setOut_tbl (bs : List Byte) (s : State) : (setOut bs s).tbl = s.tbl := rfl
@[simp] theorem setOut_out (bs : List Byte) (s : State) : (setOut bs s).out = bs := rfl
@[simp] theorem setOut_phase (bs : List Byte) (s : State) : (setOut bs s).phase = s.phase := rfl
@[simp] theorem setOut_err (bs : List Byte) (s : State) : (setOut bs s).err = s.err := rfl
@[simp] theorem setOut_done (bs : List Byte) (s : State) : (setOut bs s).done = s.done := rfl
@[simp] theorem setOut_cmd (bs : List Byte) (s : State) : (setOut bs s).cmd = s.cmd := rfl
@[simp] theorem setOut_resets (bs : List Byte) (s : State) : (setOut bs s).resets = s.resets := rfl

/-! ### `setPhase` -/

@[simp] theorem setPhase_low (p : Phase) (s : State) : (setPhase p s).low = s.low := rfl
@[simp] theorem setPhase_range (p : Phase) (s : State) : (setPhase p s).range = s.range := rfl
@[simp] theorem setPhase_tbl (p : Phase) (s : State) : (setPhase p s).tbl = s.tbl := rfl
@[simp] theorem setPhase_out (p : Phase) (s : State) : (setPhase p s).out = s.out := rfl
@[simp] theorem setPhase_phase (p : Phase) (s : State) : (setPhase p s).phase = p := rfl
@[simp] theorem setPhase_err (p : Phase) (s : State) : (setPhase p s).err = s.err := rfl
@[simp] theorem setPhase_done (p : Phase) (s : State) : (setPhase p s).done = s.done := rfl
@[simp] theorem setPhase_cmd (p : Phase) (s : State) : (setPhase p s).cmd = s.cmd := rfl
@[simp] theorem setPhase_resets (p : Phase) (s : State) : (setPhase p s).resets = s.resets := rfl

/-! ### `setErr` -/

@[simp] theorem setErr_low (e : ErrCode) (s : State) : (setErr e s).low = s.low := rfl
@[simp] theorem setErr_range (e : ErrCode) (s : State) : (setErr e s).range = s.range := rfl
@[simp] theorem setErr_tbl (e : ErrCode) (s : State) : (setErr e s).tbl = s.tbl := rfl
@[simp] theorem setErr_out (e : ErrCode) (s : State) : (setErr e s).out = s.out := rfl
@[simp] theorem setErr_phase (e : ErrCode) (s : State) : (setErr e s).phase = s.phase := rfl
@[simp] theorem setErr_err (e : ErrCode) (s : State) : (setErr e s).err = e := rfl
@[simp] theorem setErr_done (e : ErrCode) (s : State) : (setErr e s).done = s.done := rfl
@[simp] theorem setErr_cmd (e : ErrCode) (s : State) : (setErr e s).cmd = s.cmd := rfl
@[simp] theorem setErr_resets (e : ErrCode) (s : State) : (setErr e s).resets = s.resets := rfl

/-! ### `setDone` -/

@[simp] theorem setDone_low (d : Bool) (s : State) : (setDone d s).low = s.low := rfl
@[simp] theorem setDone_range (d : Bool) (s : State) : (setDone d s).range = s.range := rfl
@[simp] theorem setDone_tbl (d : Bool) (s : State) : (setDone d s).tbl = s.tbl := rfl
@[simp] theorem setDone_out (d : Bool) (s : State) : (setDone d s).out = s.out := rfl
@[simp] theorem setDone_phase (d : Bool) (s : State) : (setDone d s).phase = s.phase := rfl
@[simp] theorem setDone_err (d : Bool) (s : State) : (setDone d s).err = s.err := rfl
@[simp] theorem setDone_done (d : Bool) (s : State) : (setDone d s).done = d := rfl
@[simp] theorem setDone_cmd (d : Bool) (s : State) : (setDone d s).cmd = s.cmd := rfl
@[simp] theorem setDone_resets (d : Bool) (s : State) : (setDone d s).resets = s.resets := rfl

/-! ### `setCmd` -/

@[simp] theorem setCmd_low (es : List HostEvent) (s : State) : (setCmd es s).low = s.low := rfl
@[simp] theorem setCmd_range (es : List HostEvent) (s : State) : (setCmd es s).range = s.range := rfl
@[simp] theorem setCmd_tbl (es : List HostEvent) (s : State) : (setCmd es s).tbl = s.tbl := rfl
@[simp] theorem setCmd_out (es : List HostEvent) (s : State) : (setCmd es s).out = s.out := rfl
@[simp] theorem setCmd_phase (es : List HostEvent) (s : State) : (setCmd es s).phase = s.phase := rfl
@[simp] theorem setCmd_err (es : List HostEvent) (s : State) : (setCmd es s).err = s.err := rfl
@[simp] theorem setCmd_done (es : List HostEvent) (s : State) : (setCmd es s).done = s.done := rfl
@[simp] theorem setCmd_cmd (es : List HostEvent) (s : State) : (setCmd es s).cmd = es := rfl
@[simp] theorem setCmd_resets (es : List HostEvent) (s : State) : (setCmd es s).resets = s.resets := rfl

/-! ### `setResets` -/

@[simp] theorem setResets_low (n : Nat) (s : State) : (setResets n s).low = s.low := rfl
@[simp] theorem setResets_range (n : Nat) (s : State) : (setResets n s).range = s.range := rfl
@[simp] theorem setResets_tbl (n : Nat) (s : State) : (setResets n s).tbl = s.tbl := rfl
@[simp] theorem setResets_out (n : Nat) (s : State) : (setResets n s).out = s.out := rfl
@[simp] theorem setResets_phase (n : Nat) (s : State) : (setResets n s).phase = s.phase := rfl
@[simp] theorem setResets_err (n : Nat) (s : State) : (setResets n s).err = s.err := rfl
@[simp] theorem setResets_done (n : Nat) (s : State) : (setResets n s).done = s.done := rfl
@[simp] theorem setResets_cmd (n : Nat) (s : State) : (setResets n s).cmd = s.cmd := rfl
@[simp] theorem setResets_resets (n : Nat) (s : State) : (setResets n s).resets = n := rfl

/-! ### Writing back what is there, and writing twice -/

@[simp] theorem setLow_self (s : State) : setLow s.low s = s := rfl
@[simp] theorem setLow_setLow (v v' : Word) (s : State) : setLow v (setLow v' s) = setLow v s := rfl
@[simp] theorem setRange_self (s : State) : setRange s.range s = s := rfl
@[simp] theorem setRange_setRange (v v' : Word) (s : State) : setRange v (setRange v' s) = setRange v s := rfl
@[simp] theorem setTbl_self (s : State) : setTbl s.tbl s = s := rfl
@[simp] theorem setTbl_setTbl (t t' : Table) (s : State) : setTbl t (setTbl t' s) = setTbl t s := rfl
@[simp] theorem setOut_self (s : State) : setOut s.out s = s := rfl
@[simp] theorem setOut_setOut (bs bs' : List Byte) (s : State) : setOut bs (setOut bs' s) = setOut bs s := rfl
@[simp] theorem setPhase_self (s : State) : setPhase s.phase s = s := rfl
@[simp] theorem setPhase_setPhase (p p' : Phase) (s : State) : setPhase p (setPhase p' s) = setPhase p s := rfl
@[simp] theorem setErr_self (s : State) : setErr s.err s = s := rfl
@[simp] theorem setErr_setErr (e e' : ErrCode) (s : State) : setErr e (setErr e' s) = setErr e s := rfl
@[simp] theorem setDone_self (s : State) : setDone s.done s = s := rfl
@[simp] theorem setDone_setDone (d d' : Bool) (s : State) : setDone d (setDone d' s) = setDone d s := rfl
@[simp] theorem setCmd_self (s : State) : setCmd s.cmd s = s := rfl
@[simp] theorem setCmd_setCmd (es es' : List HostEvent) (s : State) : setCmd es (setCmd es' s) = setCmd es s := rfl
@[simp] theorem setResets_self (s : State) : setResets s.resets s = s := rfl
@[simp] theorem setResets_setResets (n n' : Nat) (s : State) : setResets n (setResets n' s) = setResets n s := rfl

end Sys2Proof.Machine
end

