-- ==== Sys2Proof/Laws/Ops.lean ====
section
/-! SUPPORT. For each shared operation of Machine/Ops.lean, what it can do, said once. -/

namespace Sys2Proof.Machine

/-! ### Fields after the composite writes -/

@[simp] theorem emit_out (b : Byte) (s : State) : (emit b s).out = s.out ++ [b] := rfl
@[simp] theorem emit_low (b : Byte) (s : State) : (emit b s).low = s.low := rfl
@[simp] theorem emit_range (b : Byte) (s : State) : (emit b s).range = s.range := rfl
@[simp] theorem emit_tbl (b : Byte) (s : State) : (emit b s).tbl = s.tbl := rfl
@[simp] theorem emit_phase (b : Byte) (s : State) : (emit b s).phase = s.phase := rfl
@[simp] theorem emit_err (b : Byte) (s : State) : (emit b s).err = s.err := rfl
@[simp] theorem emit_done (b : Byte) (s : State) : (emit b s).done = s.done := rfl
@[simp] theorem emit_cmd (b : Byte) (s : State) : (emit b s).cmd = s.cmd := rfl
@[simp] theorem emit_resets (b : Byte) (s : State) : (emit b s).resets = s.resets := rfl

@[simp] theorem raiseError_low (c : ErrorCause) (s : State) : (raiseError c s).low = s.low := rfl
@[simp] theorem raiseError_range (c : ErrorCause) (s : State) : (raiseError c s).range = s.range := rfl
@[simp] theorem raiseError_tbl (c : ErrorCause) (s : State) : (raiseError c s).tbl = s.tbl := rfl
@[simp] theorem raiseError_out (c : ErrorCause) (s : State) : (raiseError c s).out = s.out := rfl
@[simp] theorem raiseError_phase (c : ErrorCause) (s : State) : (raiseError c s).phase = causePhase c := rfl
@[simp] theorem raiseError_err (c : ErrorCause) (s : State) : (raiseError c s).err = causeCode c := rfl
@[simp] theorem raiseError_done (c : ErrorCause) (s : State) : (raiseError c s).done = causeDone c s.done := rfl
@[simp] theorem raiseError_cmd (c : ErrorCause) (s : State) : (raiseError c s).cmd = s.cmd := rfl
@[simp] theorem raiseError_resets (c : ErrorCause) (s : State) : (raiseError c s).resets = s.resets := rfl

@[simp] theorem hardwareReset_low (s : State) : (hardwareReset s).low = Config.unspecifiedLow s.resets := rfl
@[simp] theorem hardwareReset_range (s : State) : (hardwareReset s).range = Config.unspecifiedRange s.resets := rfl
@[simp] theorem hardwareReset_tbl (s : State) : (hardwareReset s).tbl = Config.unspecifiedTbl s.resets := rfl
@[simp] theorem hardwareReset_out (s : State) : (hardwareReset s).out = [] := rfl
@[simp] theorem hardwareReset_phase (s : State) : (hardwareReset s).phase = .idle := rfl
@[simp] theorem hardwareReset_err (s : State) : (hardwareReset s).err = .noError := rfl
@[simp] theorem hardwareReset_done (s : State) : (hardwareReset s).done = false := rfl
@[simp] theorem hardwareReset_cmd (s : State) : (hardwareReset s).cmd = s.cmd := rfl
@[simp] theorem hardwareReset_resets (s : State) : (hardwareReset s).resets = s.resets + 1 := rfl

/-- The state after reset is what the reset event leaves, with free values number 0 and no event issued. -/
theorem reset_eq_hardwareReset (s : State) : State.reset = hardwareReset (setResets 0 (setCmd [] s)) := rfl

/-! ### The table memory -/

/-- What a read gives after a write: the value at the entry written, the old value elsewhere. -/
theorem memRead_memWrite (i j : Fin 257) (v : Word) (s : State) :
    memRead i (memWrite j v s) = if i = j then v else memRead i s := by
  by_cases h : i = j
  · subst h; simp [memRead, memWrite, entry, Vector.get_eq_getElem]
  · have h' : j.val ≠ i.val := fun e => h (Fin.ext e.symm)
    simp [memRead, memWrite, entry, Vector.get_eq_getElem, h, Vector.getElem_set_ne, h']

/-- Two tables with the same entries are the same table. -/
theorem table_ext {t u : Table} (h : ∀ i, entry t i = entry u i) : t = u :=
  Vector.ext fun i hi => h ⟨i, hi⟩

/-! ### Division -/

@[simp] theorem div32_zero (a : Word) : div32 a 0#32 = none := rfl

theorem div32_of_ne {a b : Word} (h : b ≠ 0) : div32 a b = some (a / b) :=
  if_neg h

/-! ### The acceptance rule -/

variable {accepts : Phase → Bool} {act : State → Host.Outcome State Fault Refusal} {s : State}

theorem ignoresCommands_iff : ignoresCommands s = true ↔ s.phase = .fault := by
  simp [ignoresCommands]

theorem guarded_of_fault (h : s.phase = .fault) : guarded accepts act s = .next s := by
  simp [guarded, ignoresCommands, h]

theorem guarded_of_accepts (h : s.phase ≠ .fault) (ha : accepts s.phase = true) : guarded accepts act s = act s := by
  simp [guarded, ignoresCommands, h, ha]

theorem guarded_of_not_accepts (h : s.phase ≠ .fault) (ha : accepts s.phase = false) :
    guarded accepts act s = .next (raiseError .badSequence s) := by
  simp [guarded, ignoresCommands, h, ha]

/-- Everything `guarded` can answer. -/
theorem guarded_cases (accepts : Phase → Bool) (act : State → Host.Outcome State Fault Refusal) (s : State) :
    (s.phase = .fault ∧ guarded accepts act s = .next s) ∨
    (s.phase ≠ .fault ∧ accepts s.phase = true ∧ guarded accepts act s = act s) ∨
    (s.phase ≠ .fault ∧ accepts s.phase = false ∧ guarded accepts act s = .next (raiseError .badSequence s)) := by
  by_cases h : s.phase = .fault
  · exact .inl ⟨h, guarded_of_fault h⟩
  · cases ha : accepts s.phase
    · exact .inr (.inr ⟨h, rfl, guarded_of_not_accepts h ha⟩)
    · exact .inr (.inl ⟨h, rfl, guarded_of_accepts h ha⟩)

/-! ### The command stream -/

theorem takeEvent_nil (h : s.cmd = []) : takeEvent s = none := by
  simp [takeEvent, h]

theorem takeEvent_cons {e : HostEvent} {rest : List HostEvent} (h : s.cmd = e :: rest) :
    takeEvent s = some (e, setCmd rest s) := by
  simp [takeEvent, h]

end Sys2Proof.Machine
end

