-- ==== Sys2Proof/Laws/Normalizer.lean ====
section
/-! SUPPORT. What the normalizer and the byte packer write, and what they leave alone. -/

namespace Sys2Proof.Machine

@[simp] theorem renormStep_low (s : State) : (renormStep s).low = shl8 s.low := rfl
@[simp] theorem renormStep_range (s : State) : (renormStep s).range = or32 (shl8 s.range) 0xFF := rfl
@[simp] theorem renormStep_out (s : State) : (renormStep s).out = s.out ++ [msb8 s.low] := rfl
@[simp] theorem renormStep_tbl (s : State) : (renormStep s).tbl = s.tbl := rfl
@[simp] theorem renormStep_phase (s : State) : (renormStep s).phase = s.phase := rfl
@[simp] theorem renormStep_err (s : State) : (renormStep s).err = s.err := rfl
@[simp] theorem renormStep_done (s : State) : (renormStep s).done = s.done := rfl
@[simp] theorem renormStep_cmd (s : State) : (renormStep s).cmd = s.cmd := rfl
@[simp] theorem renormStep_resets (s : State) : (renormStep s).resets = s.resets := rfl

theorem renormWithin_zero (s : State) : renormWithin 0 s = s := rfl

theorem renormWithin_of_wide {s : State} (n : Nat) (h : ¬ s.range ≤ Config.bottom) : renormWithin n s = s := by
  cases n with
  | zero => rfl
  | succ n => exact if_neg h

theorem renormWithin_of_narrow {s : State} (n : Nat) (h : s.range ≤ Config.bottom) :
    renormWithin (n + 1) s = renormWithin n (renormStep s) :=
  if_pos h

/-- A property that every RENORM_STEP keeps, the whole loop keeps. -/
theorem renormWithin_induct {P : State → Prop} (hstep : ∀ u, P u → P (renormStep u)) (n : Nat) (s : State) (h : P s) :
    P (renormWithin n s) := by
  induction n generalizing s with
  | zero => exact h
  | succ n ih =>
    by_cases hb : s.range ≤ Config.bottom
    · rw [renormWithin_of_narrow n hb]; exact ih _ (hstep s h)
    · rw [renormWithin_of_wide _ hb]; exact h

@[simp] theorem renorm_tbl (s : State) : (renorm s).tbl = s.tbl :=
  renormWithin_induct (P := fun u => u.tbl = s.tbl) (fun _ h => h) 3 s rfl
@[simp] theorem renorm_phase (s : State) : (renorm s).phase = s.phase :=
  renormWithin_induct (P := fun u => u.phase = s.phase) (fun _ h => h) 3 s rfl
@[simp] theorem renorm_err (s : State) : (renorm s).err = s.err :=
  renormWithin_induct (P := fun u => u.err = s.err) (fun _ h => h) 3 s rfl
@[simp] theorem renorm_done (s : State) : (renorm s).done = s.done :=
  renormWithin_induct (P := fun u => u.done = s.done) (fun _ h => h) 3 s rfl
@[simp] theorem renorm_cmd (s : State) : (renorm s).cmd = s.cmd :=
  renormWithin_induct (P := fun u => u.cmd = s.cmd) (fun _ h => h) 3 s rfl
@[simp] theorem renorm_resets (s : State) : (renorm s).resets = s.resets :=
  renormWithin_induct (P := fun u => u.resets = s.resets) (fun _ h => h) 3 s rfl

/-- FLUSH appends the four bytes of LOW and writes nothing else. -/
theorem flush_eq (s : State) : flush s = setOut (s.out ++ bytesMsbFirst s.low) s := by
  simp [flush, bytesMsbFirst, emit]

end Sys2Proof.Machine
end

