-- ==== Sys2Proof/Laws/Table.lean ====
section
/-! SUPPORT. What each entry of the table holds after TINIT, UPDATE and RESCALE: the table functions entry by entry, so that
no later proof unfolds their list recursions. -/

namespace Sys2Proof.Machine

theorem lowIndex_val (b : Byte) : (lowIndex b).val = b.toNat := rfl
theorem highIndex_val (b : Byte) : (highIndex b).val = b.toNat + 1 := rfl
theorem totalIndex_val : totalIndex.val = 256 := rfl

theorem tableInit_get (i : Fin 257) : entry tableInit i = BitVec.ofNat 32 i.val := by
  simp [entry, Vector.get_eq_getElem, tableInit]

theorem incrementFrom_get (n : Nat) (xs : List Word) (i : Nat) (h : i < xs.length) :
    (incrementFrom n xs)[i]'(by simpa [incrementFrom_length] using h) = if n ≤ i then xs[i] + 1 else xs[i] := by
  induction n generalizing xs i with
  | zero => simp [incrementFrom, add32]
  | succ n ih =>
    cases xs with
    | nil => simp at h
    | cons x xs =>
      cases i with
      | zero => simp [incrementFrom]
      | succ i => simpa [incrementFrom] using ih xs i (by simpa using h)

/-- UPDATE adds 1 to the entries above `b` and leaves the others (R57). -/
theorem tableUpdate_get (b : Byte) (t : Table) (i : Fin 257) :
    entry (tableUpdate b t) i = if i.val ≤ b.toNat then entry t i else entry t i + 1 := by
  have h := incrementFrom_get (b.toNat + 1) t.toList i.val (by simp)
  have e : entry (tableUpdate b t) i = (incrementFrom (b.toNat + 1) t.toList)[i.val]'(by simp [incrementFrom_length]) := by
    simp [entry, Vector.get_eq_getElem, tableUpdate]
  rw [e, h]
  by_cases hi : i.val ≤ b.toNat
  · rw [if_neg (by omega), if_pos hi]; simp [entry, Vector.get_eq_getElem]
  · rw [if_pos (by omega), if_neg hi]; simp [entry, Vector.get_eq_getElem]

theorem tableUpdate_of_le {b : Byte} (t : Table) {i : Fin 257} (h : i.val ≤ b.toNat) :
    entry (tableUpdate b t) i = entry t i :=
  (tableUpdate_get b t i).trans (if_pos h)

theorem tableUpdate_of_gt {b : Byte} (t : Table) {i : Fin 257} (h : b.toNat < i.val) :
    entry (tableUpdate b t) i = entry t i + 1 :=
  (tableUpdate_get b t i).trans (if_neg (Nat.not_le_of_lt h))

/-- The entries `rebuildFrom` lists: each is the entry before it plus the halved old gap. -/
theorem rebuildFrom_get (p q : Word) (xs : List Word) (i : Nat) (h : i < xs.length) :
    (rebuildFrom p q xs)[i]'(by simpa [rebuildFrom_length] using h) =
      (q :: rebuildFrom p q xs)[i]'(by simp [rebuildFrom_length]; omega) + halve (xs[i] - (p :: xs)[i]'(by simp; omega)) := by
  induction xs generalizing p q i with
  | nil => simp at h
  | cons x xs ih =>
    cases i with
    | zero => simp [rebuildFrom, add32, sub32]
    | succ i => simpa [rebuildFrom] using ih x _ i (by simpa using h)

theorem rescaleList_zero (xs : List Word) (h : 0 < xs.length) :
    (rescaleList xs)[0]'(by simpa [rescaleList_length] using h) = xs[0] := by
  cases xs with
  | nil => simp at h
  | cons x xs => rfl

theorem rescaleList_succ (xs : List Word) (i : Nat) (h : i + 1 < xs.length) :
    (rescaleList xs)[i + 1]'(by simpa [rescaleList_length] using h) =
      (rescaleList xs)[i]'(by simp [rescaleList_length]; omega) + halve (xs[i + 1] - xs[i]) := by
  cases xs with
  | nil => simp at h
  | cons x xs => simpa [rescaleList] using rebuildFrom_get x x xs i (by simpa using h)

/-- RESCALE leaves `T[0]` (R59). -/
theorem tableRescale_zero (t : Table) : entry (tableRescale t) 0 = entry t 0 := by
  have h := rescaleList_zero t.toList (by simp)
  simpa [entry, Vector.get_eq_getElem, tableRescale] using h

/-- RESCALE rebuilds every later entry from the new entry before it and the old gap (R59). -/
theorem tableRescale_succ (t : Table) (i : Fin 256) :
    entry (tableRescale t) i.succ =
      entry (tableRescale t) i.castSucc + halve (entry t i.succ - entry t i.castSucc) := by
  have h := rescaleList_succ t.toList i.val (by simp only [Vector.length_toList]; omega)
  simpa [entry, Vector.get_eq_getElem, tableRescale] using h

end Sys2Proof.Machine
end

