-- ==== Sys2Proof/Laws/Commands.lean ====
section
/-! SUPPORT. What the parts of the three commands write: one lemma per field, so that the provers need not unfold the
micro-operations. -/

namespace Sys2Proof.Machine

/-! ### START -/

@[simp] theorem startCall_low (s : State) : (startCall s).low = 0 := rfl
@[simp] theorem startCall_range (s : State) : (startCall s).range = 0xFFFFFFFF := rfl
@[simp] theorem startCall_tbl (s : State) : (startCall s).tbl = tableInit := rfl
@[simp] theorem startCall_out (s : State) : (startCall s).out = [] := rfl
@[simp] theorem startCall_phase (s : State) : (startCall s).phase = .opened := rfl
@[simp] theorem startCall_err (s : State) : (startCall s).err = .noError := rfl
@[simp] theorem startCall_done (s : State) : (startCall s).done = false := rfl
@[simp] theorem startCall_cmd (s : State) : (startCall s).cmd = s.cmd := rfl
@[simp] theorem startCall_resets (s : State) : (startCall s).resets = s.resets := rfl

/-! ### SYM -/

/-- The table a SYM leaves: updated, and rescaled when the new total exceeds the limit. -/
def tableAfterSym (b : Byte) (t : Table) : Table :=
  if Config.rescaleLimit < entry (tableUpdate b t) totalIndex then tableRescale (tableUpdate b t) else tableUpdate b t

/-- The whole effect of a SYM once UNIT is known. -/
theorem codeWithUnit_eq (b : Byte) (unit : Word) (s : State) :
    codeWithUnit b unit s =
      setPhase .coding (setTbl (tableAfterSym b s.tbl)
        (renorm (narrow unit (entry s.tbl (lowIndex b)) (entry s.tbl (highIndex b)) s))) := by
  by_cases h : Config.rescaleLimit < entry (tableUpdate b s.tbl) totalIndex
  · simp [codeWithUnit, tableAfterSym, lookup, memRead, update, rescaleCheck, rescale, h, narrow]
  · simp [codeWithUnit, tableAfterSym, lookup, memRead, update, rescaleCheck, h, narrow]

/-- Everything SYM can answer where it is accepted: the stop on a zero total, or the coded state. -/
theorem codeSymbol_cases (b : Byte) (s : State) :
    (entry s.tbl totalIndex = 0 ∧ codeSymbol b s = .fault .divideByZeroTotal) ∨
    (entry s.tbl totalIndex ≠ 0 ∧ codeSymbol b s = .next (codeWithUnit b (s.range / entry s.tbl totalIndex) s)) := by
  by_cases h : entry s.tbl totalIndex = 0
  · left; refine ⟨h, ?_⟩; simp [codeSymbol, divide, lookup, memRead, h, div32_zero]
  · right; refine ⟨h, ?_⟩; simp only [codeSymbol, divide, lookup, memRead, div32_of_ne h]

/-! ### FINISH -/

theorem finishCall_of_opened {s : State} (h : s.phase = .opened) : finishCall s = raiseError .emptyInput s :=
  if_pos h

theorem finishCall_of_not_opened {s : State} (h : s.phase ≠ .opened) :
    finishCall s = setPhase .idle (setDone true (setOut (s.out ++ bytesMsbFirst s.low) s)) := by
  simp [finishCall, h, flush_eq]

end Sys2Proof.Machine
end

