-- ==== Sys2Proof/Laws/PerInstr.lean ====
section
/-! SUPPORT. Statements made per instruction, about the instruction as syntax. WordFields: the two fields of an encoded
command are the OPC of its row of spec/30_encoding.md R47 and its operand, or zero (R45, R48). -/

namespace Sys2Proof.Laws.WordFields

/-- OPC of the command's row in R47. -/
def rowOpc (i : Instr) : Byte :=
  match i with
  | .start => 0x01
  | .sym _ => 0x02
  | .finish => 0x03

/-- The operand, zero for a command that has none (R45). -/
def operand (i : Instr) : Byte :=
  match i with
  | .start => 0
  | .sym b => b
  | .finish => 0

/-- The encoded word holds the row's OPC in bits 15:8 and the operand in bits 7:0. -/
def Statement (i : Instr) : Prop :=
  opcOf (encode i) = rowOpc i ∧ argOf (encode i) = operand i

theorem start : Statement .start := by
  simp [Statement, opcOf, argOf, encode, rowOpc, operand]

theorem sym (b : Byte) : Statement (.sym b) :=
  ⟨BitVec.extractLsb'_append_eq_left, BitVec.extractLsb'_append_eq_right⟩

theorem finish : Statement .finish := by
  simp [Statement, opcOf, argOf, encode, rowOpc, operand]

end Sys2Proof.Laws.WordFields
end

