-- ==== Sys2Proof/Laws/Step.lean ====
section
/-! SUPPORT. What one step can do, said once: the event it consumes and what runs then. -/

namespace Sys2Proof.Machine

/-! ### The arms of `exec` -/

theorem exec_start_eq (s : State) : exec .start s = guarded acceptsStart (fun u => .next (startCall u)) s := rfl

theorem exec_sym_eq (b : Byte) (s : State) : exec (.sym b) s = guarded acceptsSym (codeSymbol b) s := rfl

theorem exec_finish_eq (s : State) : exec .finish s = guarded acceptsFinish (fun u => .next (finishCall u)) s := rfl

/-! ### One word and one step -/

theorem runWord_of_fault {s : State} (w : CmdWord) (h : s.phase = .fault) : runWord w s = .next s := by
  simp [runWord, ignoresCommands, h]

theorem runWord_of_error {s : State} {w : CmdWord} {e : DecodeError} (h : s.phase ≠ .fault) (hd : decode w = .error e) :
    runWord w s = .next (raiseError .illegalCommand s) := by
  simp [runWord, ignoresCommands, h, hd]

theorem runWord_of_ok {s : State} {w : CmdWord} {i : Instr} (h : s.phase ≠ .fault) (hd : decode w = .ok i) :
    runWord w s = exec i s := by
  simp [runWord, ignoresCommands, h, hd]

/-- Everything one step can be: idle, a reset event, or a command word, consumed. -/
theorem step_cases (s : State) :
    (s.cmd = [] ∧ step s = .next s) ∨
    (∃ rest, s.cmd = .reset :: rest ∧ step s = .next (hardwareReset (setCmd rest s))) ∨
    (∃ w rest, s.cmd = .word w :: rest ∧ step s = runWord w (setCmd rest s)) := by
  rcases h : s.cmd with _ | ⟨_ | _, rest⟩
  · exact .inl ⟨rfl, by simp [step, runHead, takeEvent_nil h, idle]⟩
  · exact .inr (.inr ⟨_, rest, rfl, by simp [step, runHead, takeEvent_cons h, runEvent]⟩)
  · exact .inr (.inl ⟨rest, rfl, by simp [step, runHead, takeEvent_cons h, runEvent]⟩)

theorem step_of_reset {s : State} {rest : List HostEvent} (h : s.cmd = .reset :: rest) :
    step s = .next (hardwareReset (setCmd rest s)) := by
  simp [step, runHead, takeEvent_cons h, runEvent]

theorem step_of_word {s : State} {w : CmdWord} {rest : List HostEvent} (h : s.cmd = .word w :: rest) :
    step s = runWord w (setCmd rest s) := by
  simp [step, runHead, takeEvent_cons h, runEvent]

end Sys2Proof.Machine
end

