-- ==== Sys2Proof/Tests/Slice0.lean ====
section
/-! SUPPORT. The model's own tests, each expected result from spec/ (the section is named at the test), and a witness for
the hypotheses of every obligation that has any. -/

namespace Sys2Proof.Tests

open Sys2Proof Sys2Proof.Machine

/-! ## Small states -/

/-- A state with a fresh table. -/
def base (p : Phase) : State where
  low := 0
  range := 0xFFFFFFFF
  tbl := tableInit
  out := []
  phase := p
  err := .noError
  done := false
  cmd := []
  resets := 1

/-- A fresh table but for its total. -/
def topTable (n : Nat) : Table :=
  tableInit.set 256 (BitVec.ofNat 32 n)

/-- A call open with the total `n`. -/
def withTotal (p : Phase) (n : Nat) : State :=
  setTbl (topTable n) (base p)

/-- The state an outcome leaves, or `s` itself where it leaves none. -/
def landing (s : State) (o : Host.Outcome State Fault Refusal) : State :=
  match o with
  | .next t => t
  | .fault _ => s
  | .refused _ => s

/-- The state after a command. -/
def after (i : Instr) (s : State) : State :=
  landing s (exec i s)

/-- `base p` with these events to come. -/
def queued (p : Phase) (es : List HostEvent) : State :=
  setCmd es (base p)

theorem base_keeps (p : Phase) : CallInvariant (base p) := fun _ =>
  have g : ∀ i : Fin 257, (entry tableInit i).toNat = i.val := fun i => by
    rw [tableInit_get]; have := i.isLt; simp; omega
  ⟨BitVec.eq_of_toNat_eq (g 0), fun s => Nat.le_of_eq (by rw [base, g, g, lowIndex_val, highIndex_val]),
    ⟨Nat.le_of_eq (g totalIndex).symm, by rw [base, g totalIndex]; decide⟩, show 65537 ≤ BitVec.toNat (0xFFFFFFFF : Word) by decide⟩

theorem topTable_get (n : Nat) (i : Fin 257) :
    entry (topTable n) i = if i.val = 256 then BitVec.ofNat 32 n else BitVec.ofNat 32 i.val := by
  by_cases h : i.val = 256
  · simp [topTable, entry, Vector.get_eq_getElem, h]
  · have h' : 256 ≠ i.val := fun e => h e.symm
    rw [if_neg h, ← tableInit_get i]
    simp [topTable, entry, Vector.get_eq_getElem, Vector.getElem_set_ne, h']

theorem topTable_toNat {n : Nat} (h : n < 4294967296) (i : Fin 257) :
    (entry (topTable n) i).toNat = if i.val = 256 then n else i.val := by
  rw [topTable_get]; have := i.isLt; split <;> simp <;> omega

theorem topTable_zero {n : Nat} (h : n < 4294967296) : tableZero (topTable n) :=
  BitVec.eq_of_toNat_eq (topTable_toNat h 0)

theorem topTable_strict {n : Nat} (h : n < 4294967296) (h' : 256 ≤ n) : tableStrict (topTable n) := fun s => by
  rw [topTable_toNat h, topTable_toNat h, lowIndex_val, highIndex_val]
  have := s.isLt
  split <;> split <;> omega

theorem withTotal_keeps (p : Phase) {n : Nat} (h' : 256 ≤ n) (h : n ≤ 8388608) : CallInvariant (withTotal p n) := fun _ =>
  have b : n < 4294967296 := by omega
  have t : (entry (topTable n) totalIndex).toNat = n := topTable_toNat b totalIndex
  ⟨topTable_zero b, topTable_strict b h', ⟨by rw [withTotal, setTbl_tbl, t]; exact h', by rw [withTotal, setTbl_tbl, t]; exact h⟩,
    show 65537 ≤ BitVec.toNat (0xFFFFFFFF : Word) by decide⟩

/-! ## Well-formedness: a term each check refuses -/

theorem test_wellFormed_call : streamWellFormed [.start, .sym 0x41, .finish, .start, .finish] = true := by decide
theorem test_wellFormed_refuses_sym_first : streamWellFormed [.sym 0x41, .finish] = false := by decide
theorem test_wellFormed_refuses_finish_first : streamWellFormed [.finish] = false := by decide
theorem test_wellFormed_refuses_second_start : streamWellFormed [.start, .start, .finish] = false := by decide
theorem test_wellFormed_refuses_open_end : streamWellFormed [.start, .sym 0x41] = false := by decide

/-! ## Decoding, spec/95_test_vectors.md section 2.1 -/

theorem test_decode_start : decode 0b0000000100000000 = .ok .start := by decide
theorem test_decode_sym_low : decode 0b0000001000000000 = .ok (.sym 0x00) := by decide
theorem test_decode_sym : decode 0b0000001001000001 = .ok (.sym 0x41) := by decide
theorem test_decode_sym_high : decode 0b0000001011111111 = .ok (.sym 0xFF) := by decide
theorem test_decode_finish : decode 0b0000001100000000 = .ok .finish := by decide
theorem test_decode_illegal :
    [0x0000, 0x0041, 0x0101, 0x01FF, 0x0301, 0x0400, 0x8200, 0xFFFF].all (fun w => !isLegal w) = true := by decide
theorem test_encode : encode .start = 0x0100 ∧ encode (.sym 0x41) = 0x0241 ∧ encode .finish = 0x0300 := by decide
theorem test_tableWord :
    decodeTableWord 16 0x0241 = some (.sym 0x41) ∧ decodeTableWord 16 0x0400 = none ∧
      decodeTableWord 24 0x010100 = none := by decide

/-! ## The commands, spec/95_test_vectors.md sections 1, 2.5 and 2.9 -/

/-- START from IDLE: STATUS 0x01, the total 256. -/
theorem test_start :
    status (after .start (base .idle)) = 0x01 ∧ entry (after .start (base .idle)).tbl totalIndex = 256 := by decide

/-- START in CODING: BadSequence, STATUS 0x0F. -/
theorem test_start_coding : status (after .start (base .coding)) = 0x0F := by decide

/-- SYM 0x41 as the first symbol of a call: LOW, RANGE, the entries on both sides of the update. -/
theorem test_sym_first :
    let t := after (.sym 0x41) (base .opened)
    (t.low, t.range, t.out, entry t.tbl 65, entry t.tbl 66, entry t.tbl totalIndex, status t) =
      (0x40FFFFBF, 0x00FFFFFF, [], 65, 67, 257, 0x02) := by decide

/-- SYM 0xFF against LOW 0xFFFFBF00 and RANGE 0x00FF00FF with total 256: the addition to LOW wraps (R69), by hand:
0x00FF00FF / 256 is 0xFF00, times 255 is 0xFE0100; 0xFFFFBF00 + 0xFE0100 is 0x1_00FDC000; one byte goes out. -/
theorem test_sym_carry :
    let t := after (.sym 0xFF) { base .coding with low := 0xFFFFBF00, range := 0x00FF00FF }
    (t.low, t.range, t.out) = (0xFDC00000, 0x00FF00FF, [0x00]) := by decide

/-- FINISH of the call 00 01 02: 01 F4 18 00 after 00 02, STATUS 0x10 (R87). -/
theorem test_finish :
    let t := after .finish { base .coding with low := 0x01F41800, out := [0x00, 0x02] }
    (t.out, status t) = ([0x00, 0x02, 0x01, 0xF4, 0x18, 0x00], 0x10) := by decide

/-- FINISH of an empty call: EmptyInput, STATUS 0x14, no byte. -/
theorem test_finish_empty :
    let t := after .finish (base .opened)
    (t.out, status t) = ([], 0x14) := by decide

/-! ## The text form, spec/30_encoding.md R52, R53 and log entry 18 -/

theorem test_compress_needs_commas :
    compressOperands [['1'], ['2']] = none ∧ compressOperands [['1', ','], ['2']] = some [1, 2] ∧
      compressOperands [['1'], [','], ['0', 'x', 'F', 'F']] = some [1, 255] ∧ compressOperands [['1', ',']] = none ∧
      compressOperands [] = some [] := by decide

theorem test_word_operand : wordValue ['2', '5', '6'] = some 0x0100 ∧ wordValue ['6', '5', '5', '3', '6'] = none := by
  decide

/-! ## Micro-operations, spec/95_test_vectors.md sections 2.4, 2.6 -/

/-- Zero RANGE: three bytes. -/
theorem test_renorm_zero :
    let t := renorm { base .coding with low := 0x12345678, range := 0 }
    (t.low, t.range, t.out) = (0x78000000, 0x00FFFFFF, [0x12, 0x34, 0x56]) := by decide

/-- RANGE equal to the threshold renormalizes. -/
theorem test_renorm_threshold :
    let t := renorm { base .coding with low := 0x12345678, range := 0x00010000 }
    (t.low, t.range, t.out) = (0x34567800, 0x010000FF, [0x12]) := by decide

set_option maxRecDepth 8000 in
/-- Rescaling the all-0xFF table of total 8388609: entry 255 stays 255, the total becomes 4194433. -/
theorem test_rescale :
    entry (tableRescale (topTable 8388609)) 255 = 255 ∧ entry (tableRescale (topTable 8388609)) 256 = 4194433 := by
  decide

/-- The check is strict. -/
theorem test_rescaleCheck :
    rescaleCheck (withTotal .coding 8388608) = false ∧ rescaleCheck (withTotal .coding 8388609) = true := by decide

/-- An illegal word in IDLE: STATUS 0x0B; the host's next word is then ignored. -/
theorem test_illegal :
    let t := landing (base .fault) (step (queued .idle [.word 0x0400, .word 0x0100]))
    let u := landing (base .idle) (step t)
    (status t, t.cmd, status u, u.cmd) = (0x0B, [.word 0x0100], 0x0B, []) := by decide

/-! ## Witnesses: for every statement that has hypotheses, a state and operands that meet them, clause by clause -/

theorem witness_DecodeMatchesOpcodeTable :
    decode 0x02FF = .ok (.sym 0xFF) ∧ (∃ r ∈ opcodeTable, rowMatches r 0x0200 = true) := by decide

theorem witness_IllegalWordsAreTheOthers :
    (queued .coding [.word 0x0101]).cmd = .word 0x0101 :: [] ∧ isLegal 0x0101 = false ∧
      (queued .coding [.word 0x0101]).phase ≠ .fault := by decide

theorem witness_EncodeDecodeRoundTrip :
    (Instr.sym 0xFF).wellFormed = true ∧ decode 0x02FF = .ok (.sym 0xFF) := by decide

theorem witness_StepRunsTheDecodedCommand :
    (queued .idle [.word 0x0241]).cmd = .word 0x0241 :: [] ∧ decode 0x0241 = .ok (.sym 0x41) ∧
      (Instr.sym 0x41).wellFormed = true ∧ decodeTableWord 16 0x0300 = some .finish := by decide

theorem witness_SequencerExecutesAWord :
    (queued .fault [.word 0x0000]).cmd = .word 0x0000 :: [] ∧ (queued .fault [.word 0x0000]).phase = .fault ∧
    (queued .idle [.word 0x0000]).cmd = .word 0x0000 :: [] ∧ (queued .idle [.word 0x0000]).phase ≠ .fault ∧
    decode 0x0000 = .error (.illegal 0x0000) ∧ decode 0x0100 = .ok .start ∧ decode 0x0200 = .ok (.sym 0) ∧
    decode 0x0300 = .ok .finish := by decide

theorem witness_EventsAreConsumedInOrder :
    (queued .idle [.word 0x0100, .reset]).cmd = .word 0x0100 :: [.reset] ∧
    (∃ t, step (queued .idle [.word 0x0100, .reset]) = .next t) ∧
    (queued .fault [.reset]).cmd = .reset :: [] ∧ (∃ t, step (queued .fault [.reset]) = .next t) :=
  ⟨rfl, ⟨_, rfl⟩, rfl, ⟨_, rfl⟩⟩

theorem witness_CausePriority :
    (queued .fault [.word 0xFFFF]).cmd = [.word 0xFFFF] ∧ (queued .fault [.word 0xFFFF]).phase = .fault ∧
    (queued .idle [.word 0xFFFF]).phase ≠ .fault ∧ isLegal 0xFFFF = false ∧
    (decode 0x0300 = .ok .finish ∧ (Instr.finish = .start ↔ (base .idle).phase ≠ .idle)) ∧
    (decode 0x0100 = .ok .start ∧ (Instr.start = .start ↔ (base .opened).phase ≠ .idle)) ∧
    (Instr.finish = .finish ∧ (base .opened).phase = .opened) ∧
    (¬ (Instr.sym 0 = .start ↔ (base .coding).phase ≠ .idle) ∧ ¬ (Instr.sym 0 = .finish ∧ (base .coding).phase = .opened) ∧
      decode 0x0200 = .ok (.sym 0)) ∧
    (∃ t, step (queued .coding [.word 0x0200]) = .next t) ∧
    (queued .coding [.reset]).cmd = .reset :: [] :=
  ⟨rfl, rfl, by decide, by decide, by decide, by decide, by decide, by decide, ⟨_, rfl⟩, rfl⟩

theorem witness_PhaseTransitionTable :
    (∀ p : Phase, (queued p [.word 0x0200, .reset]).cmd = .word 0x0200 :: [.reset]) ∧
    entry (base .opened).tbl totalIndex ≠ 0 ∧ entry (base .coding).tbl totalIndex ≠ 0 ∧
    (queued .idle [.reset]).cmd = .reset :: [] ∧
    (queued .idle [.word 0x0100, .word 0x0300, .reset]).cmd = [0x0100, 0x0300].map HostEvent.word ++ [.reset] ∧
    [0x0100, 0x0300] = [Instr.start, .finish].map encode ∧ streamWellFormed [.start, .finish] = true ∧
    [0x0100] = [Instr.start].map encode ∧ streamWellFormed ([.start] ++ [.finish]) = true :=
  ⟨fun _ => rfl, by decide, by decide, rfl, rfl, by decide, by decide, by decide, by decide⟩

theorem witness_ErrorsArePrecise :
    (∃ t, step (queued .coding [.word 0x0100]) = .next t ∧ t.phase = .fault) ∧
    (∃ t, step (queued .opened [.word 0x0300]) = .next t ∧ (queued .opened [.word 0x0300]).phase = .opened ∧
      t.phase = .idle) :=
  ⟨⟨_, rfl, rfl⟩, ⟨_, rfl, rfl, rfl⟩⟩

theorem witness_EmptyInputEndsTheCall : (base .opened).phase = .opened := rfl

theorem witness_IllegalCommandFaults :
    (queued .opened [.word 0x0400]).cmd = .word 0x0400 :: [] ∧ (∀ r ∈ opcodeTable, rowMatches r 0x0400 = false) ∧
      (queued .opened [.word 0x0400]).phase ≠ .fault := by decide

theorem witness_BadSequenceFaults :
    (Instr.start = .start ∧ callOpen (base .coding)) ∧ ((∃ b, Instr.sym 0xFF = .sym b) ∧ (base .idle).phase = .idle) ∧
      (Instr.finish = .finish ∧ (base .idle).phase = .idle) :=
  ⟨⟨rfl, .inr rfl⟩, ⟨⟨_, rfl⟩, rfl⟩, rfl, rfl⟩

theorem witness_FaultAbsorbsEveryWord :
    (queued .fault [.word 0x0100, .word 0xFFFF, .reset]).phase = .fault ∧
    (queued .fault [.word 0x0100, .word 0xFFFF, .reset]).cmd = [0x0100, 0xFFFF].map HostEvent.word ++ [.reset] ∧
    (∃ t, step (queued .fault [.reset]) = .next t ∧ t.phase ≠ .fault) :=
  ⟨rfl, rfl, _, rfl, nofun⟩

theorem witness_RecoveryFromErrors :
    (base .opened).phase = .opened ∧ isLegal 0x0000 = false ∧
    (∃ t, (base .fault).phase = .fault ∧ step (base .fault) = .next t) ∧
    (queued .fault [.word 0x0100, .reset]).cmd = [0x0100].map HostEvent.word ++ .reset :: [] :=
  ⟨rfl, by decide, ⟨_, rfl, rfl⟩, rfl⟩

/-- Every kind of change of DONE and ERR happens. -/
theorem witness_DoneAndErrHaveTheirWriters :
    (∃ t, step (queued .coding [.word 0x0300]) = .next t ∧ t.done ≠ (base .coding).done ∧ t.done = true) ∧
    (∃ t, step { queued .idle [.word 0x0100] with done := true, err := .emptyInput } = .next t ∧ t.done = false ∧
      t.err = .noError) ∧
    (∃ t, step { queued .fault [.reset] with done := true, err := .badSequence } = .next t ∧ t.done = false ∧
      t.err = .noError) ∧
    (∃ t, step (queued .opened [.word 0x0300]) = .next t ∧ t.err ≠ (base .opened).err ∧ t.err = .emptyInput) ∧
    (∃ t, step (queued .opened [.word 0x0301]) = .next t ∧ t.err ≠ (base .opened).err ∧ t.err = .illegalCommand) ∧
    (∃ t, step (queued .opened [.word 0x0100]) = .next t ∧ t.err ≠ (base .opened).err ∧ t.err = .badSequence) ∧
    callOpen (base .coding) ∧ callOpen (base .opened) :=
  ⟨⟨_, rfl, by decide, rfl⟩, ⟨_, rfl, rfl, rfl⟩, ⟨_, rfl, rfl, rfl⟩, ⟨_, rfl, by decide, rfl⟩, ⟨_, rfl, by decide, rfl⟩,
    ⟨_, rfl, by decide, rfl⟩, .inr rfl, .inl rfl⟩

theorem witness_HardwareResetLeaves : (queued .fault [.reset]).cmd = .reset :: [] := rfl

theorem witness_OnlyFinishOrResetEndsACall :
    (∃ t, callOpen (queued .coding [.word 0x0300]) ∧ step (queued .coding [.word 0x0300]) = .next t ∧ t.phase = .idle) ∧
    (∃ t, callOpen (queued .opened [.reset]) ∧ step (queued .opened [.reset]) = .next t ∧ t.phase = .idle) ∧
    (∃ t, (queued .fault [.reset]).phase = .fault ∧ step (queued .fault [.reset]) = .next t ∧ t.phase ≠ .fault) :=
  ⟨⟨_, .inr rfl, rfl, rfl⟩, ⟨_, .inl rfl, rfl, rfl⟩, ⟨_, rfl, rfl, nofun⟩⟩

theorem witness_ResetAndStartValues : (base .idle).phase = .idle ∧ State.reset.phase = .idle := ⟨rfl, rfl⟩

theorem witness_DeadRegistersAreNeverRead :
    (base .idle).phase = .idle ∧ State.reset.phase = .idle ∧
      ((base .fault).phase = .idle ∨ (base .fault).phase = .fault) :=
  ⟨rfl, rfl, .inr rfl⟩

theorem witness_StartOpensACall :
    (base .idle).phase = .idle ∧ callOpen (base .opened) ∧ callOpen (base .coding) ∧ (base .fault).phase = .fault :=
  ⟨rfl, .inl rfl, .inr rfl, rfl⟩

/-- SYM is accepted in OPEN and in CODING, without and with a rescale. -/
theorem witness_SymCodesOneByte :
    (callOpen (base .opened) ∧ entry (base .opened).tbl totalIndex ≠ 0) ∧
    (callOpen (withTotal .coding 8388608) ∧ entry (withTotal .coding 8388608).tbl totalIndex ≠ 0 ∧
      8388608 < (entry (tableUpdate 0xFF (topTable 8388608)) totalIndex).toNat) ∧
    (base .idle).phase = .idle ∧ (base .fault).phase = .fault :=
  ⟨⟨.inl rfl, by decide⟩, ⟨.inr rfl, by decide, by decide⟩, rfl, rfl⟩

theorem witness_FinishEndsTheCall : ∀ p : Phase, (base p).phase = p := fun _ => rfl

/-- Each command answers a next state in each phase. -/
theorem witness_CommandFrames :
    (∃ t, exec .start (base .idle) = .next t) ∧ (∃ t, exec .start (base .coding) = .next t) ∧
    (∃ t, exec (.sym 0xFF) (base .opened) = .next t) ∧ (∃ t, exec (.sym 0) (base .idle) = .next t) ∧
    (∃ t, exec .finish (base .coding) = .next t) ∧ (∃ t, exec .finish (base .opened) = .next t) ∧
    (∃ t, exec .finish (base .fault) = .next t) ∧ ¬ callOpen (base .fault) ∧ (base .idle).phase ≠ .coding :=
  ⟨⟨_, rfl⟩, ⟨_, rfl⟩, ⟨_, rfl⟩, ⟨_, rfl⟩, ⟨_, rfl⟩, ⟨_, rfl⟩, ⟨_, rfl⟩, nofun, by decide⟩

theorem witness_LookupReturnsTheBounds :
    callOpen (withTotal .coding 8388608) ∧ CallInvariant (withTotal .coding 8388608) ∧ callOpen (base .opened) ∧
      CallInvariant (base .opened) :=
  ⟨.inr rfl, withTotal_keeps _ (by decide) (by decide), .inl rfl, base_keeps _⟩

/-- The largest entry that must not wrap, the highest symbol, the highest index. -/
theorem witness_UpdateCountsOneOccurrence :
    (memRead totalIndex (withTotal .coding 8388608)).toNat ≤ 8388608 ∧ (255 : Byte).toNat < totalIndex.val ∧
      (0 : Byte) ≠ 255 := by decide

theorem witness_RescaleCheckIsStrict :
    callOpen (withTotal .coding 8388608) ∧ memRead totalIndex (withTotal .coding 8388608) ≠ 0 ∧
    (∃ t, exec .start (base .idle) = .next t) ∧ (∃ t, exec .finish (base .coding) = .next t) :=
  ⟨.inr rfl, by decide, ⟨_, rfl⟩, ⟨_, rfl⟩⟩

theorem witness_RescalePostconditions :
    tableZero (topTable 8388609) ∧ tableStrict (topTable 8388609) ∧
    (entry (topTable 8388609) totalIndex).toNat = 8388609 ∧
    (freq (topTable 8388609) 0).toNat ≤ (freq (topTable 8388609) 255).toNat :=
  ⟨topTable_zero (by decide), topTable_strict (by decide) (by decide), by decide, by decide⟩

/-- The first rescale, the last symbol before it, and the bounds between two. -/
theorem witness_RescaleTiming :
    (callOpen (withTotal .coding 8388608) ∧ CallInvariant (withTotal .coding 8388608) ∧
      rescaleCheck (update 0xFF (withTotal .coding 8388608)) = true) ∧
    ((base .idle).phase = .idle ∧ (List.replicate 8388352 (0 : Byte)).length ≤ 8388352) ∧
    ((memRead totalIndex (withTotal .coding 8388608)).toNat + ([] : List Byte).length ≤ 8388608) ∧
    (callOpen (withTotal .coding 4194433) ∧ CallInvariant (withTotal .coding 4194433) ∧
      (memRead totalIndex (withTotal .coding 4194433)).toNat + [(0x41 : Byte)].length ≤ 8388608) ∧
    (∃ t, exec (.sym 0xFF) (withTotal .coding 8388608) = .next t) :=
  ⟨⟨.inr rfl, withTotal_keeps _ (by decide) (by decide), by decide⟩, ⟨rfl, by rw [List.length_replicate]⟩, by decide,
    ⟨.inr rfl, withTotal_keeps _ (by decide) (by decide), by decide⟩, ⟨_, rfl⟩⟩

theorem witness_FrequenciesDetermineTheTable :
    tableZero tableInit ∧ tableStrict tableInit ∧ tableZero (topTable 256) ∧
      ∀ b : Byte, freq tableInit b = freq tableInit b :=
  have k := base_keeps .opened (.inl rfl)
  ⟨k.1, k.2.1, topTable_zero (by decide), fun _ => rfl⟩

theorem witness_DivideFloors :
    (256 : Word) ≠ 0 ∧ callOpen (base .opened) ∧ CallInvariant (base .opened) ∧ (base .opened).range = 0xFFFFFFFF :=
  ⟨by decide, .inl rfl, base_keeps _, rfl⟩

theorem witness_DivisionByZeroIsUnreachable :
    (∃ s, Reachable s ∧ callOpen s) ∧ CallInvariant (base .opened) ∧
    callOpen (withTotal .coding 0) ∧ memRead totalIndex (withTotal .coding 0) = 0 :=
  ⟨⟨startCall (setCmd [] (setCmd [.word 0x0100] State.reset)), .step _ _ (.reset [.word 0x0100]) rfl, .inl rfl⟩,
    base_keeps _, .inr rfl, by decide⟩

/-- The smallest RANGE and the largest total: the unit is 0; a fresh call: it is not. -/
theorem witness_NarrowReplacesTheInterval :
    (callOpen (setRange 65537 (withTotal .coding 8388608)) ∧ CallInvariant (setRange 65537 (withTotal .coding 8388608)) ∧
      (65537 : Word) / memRead totalIndex (setRange 65537 (withTotal .coding 8388608)) = 0) ∧
    (callOpen (base .opened) ∧ CallInvariant (base .opened) ∧ (0xFFFFFFFF : Word) / memRead totalIndex (base .opened) ≠ 0) :=
  have k := withTotal_keeps .coding (n := 8388608) (by decide) (by decide) (.inr rfl)
  ⟨⟨.inr rfl, fun _ => ⟨k.1, k.2.1, k.2.2.1, show 65537 ≤ BitVec.toNat (65537 : Word) by decide⟩, by decide⟩,
    .inl rfl, base_keeps _, by decide⟩

theorem witness_ProductsNeverOverflow :
    callOpen (withTotal .coding 8388608) ∧ CallInvariant (withTotal .coding 8388608) :=
  ⟨.inr rfl, withTotal_keeps _ (by decide) (by decide)⟩

theorem witness_CarryOutOfLowIsLost : (base .idle).phase = .idle := rfl

theorem witness_ZeroUnitEmitsThreeBytesOfLow :
    callOpen (setRange 65609 (withTotal .coding 65865)) ∧
      (setRange 65609 (withTotal .coding 65865)).range < memRead totalIndex (setRange 65609 (withTotal .coding 65865)) :=
  ⟨.inr rfl, by decide⟩

theorem witness_UnitIsNonZeroInShortCalls :
    (base .idle).phase = .idle ∧ (List.replicate 65281 (0x41 : Byte)).length ≤ 65281 :=
  ⟨rfl, by rw [List.length_replicate]⟩

theorem witness_RenormIsTheWhileLoop :
    65536 < (setRange 65537 (base .coding)).range.toNat ∧ (setRange 65536 (base .coding)).range.toNat ≤ 65536 := by decide

theorem witness_RenormStepShiftsOneByteOut : (setRange 65536 (base .coding)).range ≤ Config.bottom := by decide

/-- The ends of every row of the table of R75. -/
theorem witness_RenormIterationTable :
    (65537 ≤ (setRange 65537 (base .coding)).range.toNat ∧ 65537 ≤ (base .coding).range.toNat) ∧
    (256 ≤ (setRange 256 (base .coding)).range.toNat ∧ (setRange 256 (base .coding)).range.toNat ≤ 65536) ∧
    (256 ≤ (setRange 65536 (base .coding)).range.toNat ∧ (setRange 65536 (base .coding)).range.toNat ≤ 65536) ∧
    (1 ≤ (setRange 1 (base .coding)).range.toNat ∧ (setRange 1 (base .coding)).range.toNat ≤ 255) ∧
    (1 ≤ (setRange 255 (base .coding)).range.toNat ∧ (setRange 255 (base .coding)).range.toNat ≤ 255) ∧
    (setRange 0 (base .coding)).range.toNat = 0 := by decide

theorem witness_RenormPostcondition :
    (renorm (setRange 65536 (base .coding))).out.length = (setRange 65536 (base .coding)).out.length + 1 ∧
    (renorm (setRange 1 (base .coding))).out.length = (setRange 1 (base .coding)).out.length + 2 ∧
    (renorm (setRange 0 (base .coding))).out.length = (setRange 0 (base .coding)).out.length + 3 := by decide

theorem witness_TableReadsWhatWasWritten : (256 : Fin 257) ≠ 0 := by decide

theorem witness_OutIsAppendOnlyAndNeverRead :
    (∃ t, step (queued .coding [.word 0x0300]) = .next t) ∧ (∃ t, step (queued .idle [.word 0x0100]) = .next t) ∧
    (∃ t, exec (.sym 0x41) (base .coding) = .next t) ∧ ¬ (Instr.sym 0x41 = .start ∧ (base .coding).phase = .idle) ∧
    (∃ t, exec .start (base .idle) = .next t) ∧ (base .idle).phase = .idle :=
  ⟨⟨_, rfl⟩, ⟨_, rfl⟩, ⟨_, rfl⟩, by decide, ⟨_, rfl⟩, rfl⟩

theorem witness_StepKeepsTheCallInvariant :
    CallInvariant (queued .coding [.word 0x0241]) ∧ callOpen (queued .coding [.word 0x0241]) :=
  ⟨base_keeps .coding, .inr rfl⟩

theorem witness_TableStaysStrictOnceInitialised :
    ∃ s t, InitialisedSinceReset s ∧ callOpen s ∧ step s = .next t ∧ InitialisedSinceReset t :=
  have h : InitialisedSinceReset (startCall (queued .idle [.word 0x0241])) := .start (queued .idle _) _ rfl rfl
  ⟨_, _, h, .inl rfl, rfl, .word _ _ 0x0241 [] h rfl rfl⟩

theorem witness_TotalAndRangeStayInBounds : ∃ s, Reachable s ∧ callOpen s :=
  ⟨startCall (setCmd [] (setCmd [.word 0x0100] State.reset)), .step _ _ (.reset [.word 0x0100]) rfl,
    .inl rfl⟩

theorem witness_OpenPhaseIsFresh :
    ∃ t, step (queued .idle [.word 0x0100]) = .next t ∧ ((base .idle).phase = .opened → False) ∧ t.phase = .opened :=
  ⟨_, rfl, nofun, rfl⟩

theorem witness_StatusShowsNineValues :
    status (queued .idle [.word 0x0100]) = 0x00 ∧ ∃ t, step (queued .idle [.word 0x0100]) = .next t :=
  ⟨by decide, _, rfl⟩

theorem witness_CommandsAgreeWithCompress :
    (queued .idle (compressStream [] ++ [.reset])).phase = .idle ∧
    (queued .idle (compressStream [] ++ [.reset])).cmd = compressStream [] ++ [.reset] ∧
    (queued .idle (compressStream [0x41])).cmd = compressStream [0x41] ++ [] ∧
    compress [0x41, 0x00, 0x41] = .ok [0x40, 0x00, 0x40, 0xFA, 0x8C] ∧ compress [] = .error .emptyInput :=
  ⟨rfl, rfl, rfl, by decide, rfl⟩

theorem witness_OutputLength :
    (base .idle).phase = .idle ∧ List.replicate 65282 (0 : Byte) ≠ [] ∧
      (List.replicate 65282 (0 : Byte)).length ≤ 65282 ∧ 65281 < (List.replicate 65282 (0 : Byte)).length := by
  rw [List.length_replicate]; exact ⟨rfl, by rw [Ne, List.replicate_eq_nil_iff]; decide, by decide, by decide⟩

theorem witness_CompressProperties :
    [(0x41 : Byte), 0x00] ≠ [] ∧ (∃ o, compress [0x41, 0x00] = .ok o) ∧ (∃ o, compress ([0x41, 0x00] ++ [0x41]) = .ok o) ∧
      (base .idle).phase = .idle :=
  ⟨by decide, ⟨_, rfl⟩, ⟨_, rfl⟩, rfl⟩

theorem witness_CallResultDependsOnSymbolsOnly :
    (queued .idle (compressStream [0x41])).phase = .idle ∧
    (setCmd (compressStream [0x41]) State.reset).phase = .idle ∧
    (queued .idle (compressStream [0x41])).cmd = compressStream [0x41] ++ [] ∧
    (setCmd (compressStream [0x41]) State.reset).cmd = compressStream [0x41] ++ [] :=
  ⟨rfl, rfl, rfl, rfl⟩

theorem witness_StatusTellsTheResult : (base .idle).phase = .idle := rfl

theorem witness_InstancesAreIsolated :
    (∃ bank, runSchedule [0, 1, 0] [queued .idle [.word 0x0100, .word 0x0241], queued .fault [.word 0x0100]] = some bank) ∧
      [base .idle, base .fault][1]? = some (base .fault) :=
  ⟨⟨_, rfl⟩, rfl⟩

end Sys2Proof.Tests
end

section
/-! PROOFS. What a command and a command word do when they answer a next state, said once for all phases: one constructor
or disjunct per case, guards included. -/

namespace Sys2Proof.Machine

/-! ### The decoder -/

theorem decode_eq_start_iff (w : CmdWord) : decode w = .ok .start ↔ w = 0x0100#16 := by
  refine ⟨fun h => by_contra fun hw => ?_, fun h => by rw [h]; rfl⟩
  rw [decode, if_neg (c := w = 0x0100) hw] at h
  split at h
  · cases h
  · split at h <;> cases h

theorem decode_eq_finish_iff (w : CmdWord) : decode w = .ok .finish ↔ w = 0x0300#16 := by
  refine ⟨fun h => by_contra fun hw => ?_, fun h => by rw [h]; decide⟩
  rw [decode, if_neg (c := w = 0x0300) hw] at h
  split at h
  · cases h
  · split at h <;> cases h

theorem isLegal_of_error {w : CmdWord} {e : DecodeError} (h : decode w = .error e) : isLegal w = false := by
  simp [isLegal, h]

/-! ### One command -/

/-- What a command that answers a next state has done: the cases of R84 to R87, R97 and R99. -/
inductive CommandEffect : Instr → State → State → Prop
  /-- Ignored in phase FAULT (R106). -/
  | ignored {i s} (hp : s.phase = .fault) : CommandEffect i s s
  /-- START in IDLE (R85). -/
  | started {s} (hp : s.phase = .idle) : CommandEffect .start s (startCall s)
  /-- SYM in an open call whose total is not 0 (R86, R72). -/
  | coded {b s} (hp : callOpen s) (hz : entry s.tbl totalIndex ≠ 0) :
      CommandEffect (.sym b) s (codeWithUnit b (s.range / entry s.tbl totalIndex) s)
  /-- FINISH in OPEN (R97). -/
  | emptyCall {s} (hp : s.phase = .opened) : CommandEffect .finish s (raiseError .emptyInput s)
  /-- FINISH in CODING (R87). -/
  | finished {s} (hp : s.phase = .coding) :
      CommandEffect .finish s (setPhase .idle (setDone true (setOut (s.out ++ bytesMsbFirst s.low) s)))
  /-- A command in a phase that does not accept it (R99). -/
  | misplaced {i s} (hp : i = .start ∧ callOpen s ∨ i ≠ .start ∧ s.phase = .idle) :
      CommandEffect i s (raiseError .badSequence s)

theorem acceptsStart_iff (p : Phase) : acceptsStart p = true ↔ p = .idle := by
  cases p <;> simp [acceptsStart]

theorem acceptsSym_iff (p : Phase) : acceptsSym p = true ↔ p = .opened ∨ p = .coding := by
  cases p <;> simp [acceptsSym]

theorem acceptsFinish_iff (p : Phase) : acceptsFinish p = true ↔ p = .opened ∨ p = .coding := by
  cases p <;> simp [acceptsFinish]

theorem callOpen_of_ne {s : State} (hf : s.phase ≠ .fault) (hi : s.phase ≠ .idle) : callOpen s := by
  unfold callOpen; cases h : s.phase <;> simp_all

theorem idle_of_not_callOpen {s : State} (hf : s.phase ≠ .fault) (ho : ¬ callOpen s) : s.phase = .idle :=
  by_contra fun hi => ho (callOpen_of_ne hf hi)

/-- Every next state a command answers is one of the cases. -/
theorem commandEffect_of_exec {i : Instr} {s t : State} (h : exec i s = .next t) : CommandEffect i s t := by
  cases i with
  | start =>
    rw [exec_start_eq] at h
    obtain ⟨hp, hg⟩ | ⟨-, ha, hg⟩ | ⟨hf, ha, hg⟩ := guarded_cases acceptsStart (fun u => .next (startCall u)) s <;>
      rw [hg] at h <;> cases h
    · exact .ignored hp
    · exact .started ((acceptsStart_iff _).1 ha)
    · exact .misplaced (.inl ⟨rfl, callOpen_of_ne hf fun hi => by simp [hi, acceptsStart] at ha⟩)
  | sym b =>
    rw [exec_sym_eq] at h
    obtain ⟨hp, hg⟩ | ⟨-, ha, hg⟩ | ⟨hf, ha, hg⟩ := guarded_cases acceptsSym (codeSymbol b) s <;> rw [hg] at h
    · cases h; exact .ignored hp
    · obtain ⟨-, hc⟩ | ⟨hz, hc⟩ := codeSymbol_cases b s <;> rw [hc] at h <;> cases h
      exact .coded ((acceptsSym_iff _).1 ha) hz
    · cases h
      exact .misplaced (.inr ⟨nofun, idle_of_not_callOpen hf fun ho => by simp [(acceptsSym_iff _).2 ho] at ha⟩)
  | finish =>
    rw [exec_finish_eq] at h
    obtain ⟨hp, hg⟩ | ⟨-, ha, hg⟩ | ⟨hf, ha, hg⟩ := guarded_cases acceptsFinish (fun u => .next (finishCall u)) s <;>
      rw [hg] at h <;> cases h
    · exact .ignored hp
    · obtain hp | hp := (acceptsFinish_iff _).1 ha
      · rw [finishCall_of_opened hp]; exact .emptyCall hp
      · rw [finishCall_of_not_opened (by simp [hp])]; exact .finished hp
    · exact .misplaced (.inr ⟨nofun, idle_of_not_callOpen hf fun ho => by simp [(acceptsFinish_iff _).2 ho] at ha⟩)

/-- A command in phase IDLE: START opens a call, the others are misplaced (R85, R99). -/
theorem exec_of_idle (i : Instr) {s : State} (h : s.phase = .idle) :
    exec i s = .next (if i = .start then startCall s else raiseError .badSequence s) := by
  cases i with
  | start => rw [exec_start_eq, guarded_of_accepts (by simp [h]) (by rw [h]; rfl), if_pos rfl]
  | sym b => rw [exec_sym_eq, guarded_of_not_accepts (by simp [h]) (by rw [h]; rfl), if_neg nofun]
  | finish => rw [exec_finish_eq, guarded_of_not_accepts (by simp [h]) (by rw [h]; rfl), if_neg nofun]

/-! ### One command word, and a step with none -/

theorem step_of_nil {s : State} (h : s.cmd = []) : step s = .next s := by
  simp [step, runHead, takeEvent_nil h, idle]

/-- Everything a command word that answers a next state can have done: ignored, illegal, or a command executed. -/
theorem runWord_cases {w : CmdWord} {s t : State} (h : runWord w s = .next t) :
    (s.phase = .fault ∧ t = s) ∨
    (s.phase ≠ .fault ∧ (∃ e, decode w = .error e) ∧ t = raiseError .illegalCommand s) ∨
    (s.phase ≠ .fault ∧ ∃ i, decode w = .ok i ∧ CommandEffect i s t) := by
  by_cases hf : s.phase = .fault
  · rw [runWord_of_fault w hf] at h; cases h
    exact .inl ⟨hf, rfl⟩
  · cases hd : decode w with
    | error e =>
      rw [runWord_of_error hf hd] at h; cases h
      exact .inr (.inl ⟨hf, ⟨e, rfl⟩, rfl⟩)
    | ok i =>
      rw [runWord_of_ok hf hd] at h
      exact .inr (.inr ⟨hf, i, rfl, commandEffect_of_exec h⟩)

end Sys2Proof.Machine
end

section
/-! PROOFS. The table as numbers: what TINIT, UPDATE and RESCALE do to a table with T0, STRICT and TOTAL (R23 to R25). -/

namespace Sys2Proof.Machine

/-! ### Strict tables -/

/-- STRICT over the 256 gaps by index, the form an induction along the table uses. -/
theorem tableStrict_iff_succ (t : Table) :
    tableStrict t ↔ ∀ i : Fin 256, (entry t i.castSucc).toNat + 1 ≤ (entry t i.succ).toNat :=
  ⟨fun h i => h (BitVec.ofFin i), fun h s => h s.toFin⟩

/-- In a strict table the entries rise at least as fast as their indices. -/
theorem tableStrict.add_le {t : Table} (h : tableStrict t) (i : Fin 257) :
    (entry t 0).toNat + i.val ≤ (entry t i).toNat := by
  rw [tableStrict_iff_succ] at h
  induction i using Fin.induction with
  | zero => simp
  | succ i ih => have := h i; simp only [Fin.val_succ, Fin.val_castSucc] at *; omega

/-- In a strict table no entry exceeds the total. -/
theorem tableStrict.le_total {t : Table} (h : tableStrict t) (i : Fin 257) :
    (entry t i).toNat ≤ (entry t totalIndex).toNat := by
  rw [tableStrict_iff_succ] at h
  induction i using Fin.reverseInduction with
  | last => exact Nat.le_refl _
  | cast i ih => have := h i; omega

/-- With T0 and STRICT the total is at least the number of symbols, the lower half of TOTAL (R25). -/
theorem tableStrict.le_total_of_zero {t : Table} (h : tableStrict t) (h0 : tableZero t) :
    256 ≤ (entry t totalIndex).toNat := by
  simpa [tableZero, totalIndex_val, show entry t 0 = 0 from h0] using h.add_le totalIndex

/-- Every symbol of a strict table has a frequency of at least 1 (R24). -/
theorem tableStrict.one_le_freq {t : Table} (h : tableStrict t) (b : Byte) : 1 ≤ (freq t b).toNat := by
  have hb := h b
  rw [freq, sub32, BitVec.toNat_sub_of_le (BitVec.le_def.2 (by omega))]
  omega

/-! ### TINIT -/

theorem tableInit_toNat (i : Fin 257) : (entry tableInit i).toNat = i.val := by
  rw [tableInit_get, BitVec.toNat_ofNat]; omega

theorem tableInit_zero : tableZero tableInit :=
  tableInit_get 0

theorem tableInit_strict : tableStrict tableInit := fun b => by
  rw [tableInit_toNat, tableInit_toNat, lowIndex_val, highIndex_val]

/-! ### UPDATE -/

/-- UPDATE on entries whose increment does not wrap. -/
theorem tableUpdate_toNat (b : Byte) {t : Table} {i : Fin 257} (h : (entry t i).toNat + 1 < 2 ^ 32) :
    (entry (tableUpdate b t) i).toNat = (entry t i).toNat + if i.val ≤ b.toNat then 0 else 1 := by
  rw [tableUpdate_get]
  split
  · rfl
  · rw [BitVec.toNat_add_of_lt (by simpa using h)]; rfl

theorem tableUpdate_zero (b : Byte) {t : Table} (h : tableZero t) : tableZero (tableUpdate b t) :=
  (tableUpdate_of_le t (Nat.zero_le _)).trans h

theorem tableUpdate_total (b : Byte) {t : Table} (h : (entry t totalIndex).toNat + 1 < 2 ^ 32) :
    (entry (tableUpdate b t) totalIndex).toNat = (entry t totalIndex).toNat + 1 := by
  rw [tableUpdate_toNat b h, if_neg (by rw [totalIndex_val]; omega)]

theorem tableUpdate_strict (b : Byte) {t : Table} (h : tableStrict t) (ht : (entry t totalIndex).toNat + 1 < 2 ^ 32) :
    tableStrict (tableUpdate b t) := fun s => by
  have hlow := h.le_total (lowIndex s)
  have hhigh := h.le_total (highIndex s)
  have hgap := h s
  rw [tableUpdate_toNat b (by omega), tableUpdate_toNat b (by omega), lowIndex_val, highIndex_val]
  split <;> split <;> omega

/-! ### RESCALE -/

theorem halve_toNat (d : Word) : (halve d).toNat = d.toNat / 2 + 1 := by
  have hhalf : (shr1 d).toNat = d.toNat / 2 := by rw [shr1, BitVec.toNat_ushiftRight, Nat.shiftRight_eq_div_pow]
  have hone : BitVec.toNat (1 : Word) = 1 := rfl
  rw [halve, add32, BitVec.toNat_add_of_lt (by omega), hhalf, hone]

/-- The halved gap, as a number. -/
theorem halve_gap_toNat {x y : Word} (h : x.toNat ≤ y.toNat) : (halve (y - x)).toNat = (y.toNat - x.toNat) / 2 + 1 := by
  rw [halve_toNat, BitVec.toNat_sub_of_le (BitVec.le_def.2 h)]

/-- RESCALE raises no entry of a strict table: a gap of at least 1 is at least its half, rounded down, plus 1. -/
theorem tableRescale_le {t : Table} (h : tableStrict t) (i : Fin 257) :
    (entry (tableRescale t) i).toNat ≤ (entry t i).toNat := by
  rw [tableStrict_iff_succ] at h
  induction i using Fin.induction with
  | zero => rw [tableRescale_zero]
  | succ i ih =>
    have hi := h i
    have hg := halve_gap_toNat (Nat.le_of_succ_le hi)
    rw [tableRescale_succ, BitVec.toNat_add]
    exact (Nat.mod_le _ _).trans (by omega)

/-- RESCALE of a strict table without wrapping: each entry is the one before it plus the halved old gap. -/
theorem tableRescale_succ_toNat {t : Table} (h : tableStrict t) (i : Fin 256) :
    (entry (tableRescale t) i.succ).toNat = (entry (tableRescale t) i.castSucc).toNat +
      (((entry t i.succ).toNat - (entry t i.castSucc).toNat) / 2 + 1) := by
  have hi := (tableStrict_iff_succ t).1 h i
  have hle := tableRescale_le h i.castSucc
  have hg := halve_gap_toNat (Nat.le_of_succ_le hi)
  rw [tableRescale_succ, BitVec.toNat_add_of_lt (by omega), hg]

theorem tableRescale_tableZero {t : Table} (h : tableZero t) : tableZero (tableRescale t) :=
  (tableRescale_zero t).trans h

theorem tableRescale_strict {t : Table} (h : tableStrict t) : tableStrict (tableRescale t) :=
  (tableStrict_iff_succ _).2 fun i => by rw [tableRescale_succ_toNat h]; omega

/-- RESCALE at least halves every entry, but for the 1 it adds per symbol below it. -/
theorem two_mul_tableRescale_le {t : Table} (h0 : tableZero t) (h : tableStrict t) (i : Fin 257) :
    2 * (entry (tableRescale t) i).toNat ≤ (entry t i).toNat + 2 * i.val := by
  induction i using Fin.induction with
  | zero => simp [tableRescale_zero, show entry t 0 = 0 from h0]
  | succ i ih =>
    have hi := (tableStrict_iff_succ t).1 h i
    rw [tableRescale_succ_toNat h]
    simp only [Fin.val_succ, Fin.val_castSucc] at *
    omega

/-! ### The invariant of the table -/

/-- T0, STRICT and TOTAL (R23, R24, R25): the part of the call invariant that speaks of the table. -/
def TableInvariant (t : Table) : Prop :=
  tableZero t ∧ tableStrict t ∧ totalBounded t

theorem tableInit_invariant : TableInvariant tableInit :=
  ⟨tableInit_zero, tableInit_strict, by rw [totalBounded, tableInit_toNat]; decide⟩

/-- Entries of a table that meets the invariant are at most `2^23`. -/
theorem TableInvariant.entry_le {t : Table} (h : TableInvariant t) (i : Fin 257) : (entry t i).toNat ≤ 2 ^ 23 := by
  obtain ⟨-, hs, -, ht⟩ := h
  exact (hs.le_total i).trans ht

/-- After UPDATE the table is still strict and from 0, and its total has grown by exactly 1. -/
theorem TableInvariant.update {t : Table} (h : TableInvariant t) (b : Byte) :
    tableZero (tableUpdate b t) ∧ tableStrict (tableUpdate b t) ∧
      (entry (tableUpdate b t) totalIndex).toNat = (entry t totalIndex).toNat + 1 := by
  obtain ⟨h0, hs, -, ht⟩ := h
  have hw : (entry t totalIndex).toNat + 1 < 2 ^ 32 := by omega
  exact ⟨tableUpdate_zero b h0, tableUpdate_strict b hs hw, tableUpdate_total b hw⟩

/-- A SYM keeps the invariant of the table: past the limit the total is `2^23 + 1`, and RESCALE brings it back. -/
theorem TableInvariant.afterSym {t : Table} (h : TableInvariant t) (b : Byte) : TableInvariant (tableAfterSym b t) := by
  obtain ⟨h0, hs, htot⟩ := h.update b
  have hle := h.entry_le totalIndex
  unfold tableAfterSym
  split
  case isTrue =>
    have h0' := tableRescale_tableZero h0
    have hs' := tableRescale_strict hs
    have hhalf := two_mul_tableRescale_le h0 hs totalIndex
    exact ⟨h0', hs', hs'.le_total_of_zero h0', by rw [totalIndex_val] at hhalf; omega⟩
  case isFalse hlim =>
    have : (entry (tableUpdate b t) totalIndex).toNat ≤ 8388608 :=
      BitVec.le_def.1 (BitVec.not_lt.1 hlim)
    exact ⟨h0, hs, hs.le_total_of_zero h0, this⟩

end Sys2Proof.Machine
end

section
/-! PROOFS. The interval is wide after RENORM, whatever it was before (R26, R73, R77). -/

namespace Sys2Proof.Machine

/-- One RENORM_STEP on a narrow range, as a number: no bit is lost (R76), so RANGE + 1 is multiplied by 256. -/
theorem renormStep_range_toNat {s : State} (h : s.range ≤ Config.bottom) :
    (renormStep s).range.toNat + 1 = (s.range.toNat + 1) * 256 := by
  have hle : s.range.toNat ≤ 65536 := BitVec.le_def.1 h
  have hshl : (shl8 s.range).toNat = s.range.toNat <<< 8 := by
    rw [shl8, BitVec.toNat_shiftLeft, Nat.mod_eq_of_lt (by rw [Nat.shiftLeft_eq]; omega)]
  have hor : (or32 (shl8 s.range) 0xFF).toNat = s.range.toNat <<< 8 + 255 := by
    rw [or32, BitVec.toNat_or, hshl]
    exact (Nat.shiftLeft_add_eq_or_of_lt (by decide) _).symm
  rw [renormStep_range, hor, Nat.shiftLeft_eq]
  omega

/-- `n` rounds are enough for a range that `n` multiplications by 256 carry past the bottom. -/
theorem renormWithin_wide (n : Nat) (s : State) (h : 65538 ≤ (s.range.toNat + 1) * 256 ^ n) :
    rangeWide (renormWithin n s) := by
  induction n generalizing s with
  | zero => rw [renormWithin_zero, rangeWide]; omega
  | succ n ih =>
    by_cases hb : s.range ≤ Config.bottom
    · rw [renormWithin_of_narrow n hb]
      exact ih _ (by rwa [renormStep_range_toNat hb, Nat.mul_assoc, ← Nat.pow_succ'])
    · rw [renormWithin_of_wide _ hb]
      exact BitVec.lt_def.1 (BitVec.not_le.1 hb)

/-- After RENORM `RANGE > 2^16`, from every value of RANGE: three rounds carry even 0 past the bottom. -/
theorem renorm_wide (s : State) : rangeWide (renorm s) :=
  renormWithin_wide 3 s (by omega)

end Sys2Proof.Machine
end

section
/-! PROOFS. The invariants of spec/10_state.md sections 3 and 4 along runs: what each command keeps, and from it what holds in
every state a run reaches (R23 to R26). -/

namespace Sys2Proof.Machine

/-! ### What the commands keep -/

@[simp] theorem codeWithUnit_tbl (b : Byte) (unit : Word) (s : State) :
    (codeWithUnit b unit s).tbl = tableAfterSym b s.tbl := by
  rw [codeWithUnit_eq]; rfl

@[simp] theorem codeWithUnit_phase (b : Byte) (unit : Word) (s : State) : (codeWithUnit b unit s).phase = .coding := by
  rw [codeWithUnit_eq]; rfl

@[simp] theorem codeWithUnit_err (b : Byte) (unit : Word) (s : State) : (codeWithUnit b unit s).err = s.err := by
  simp [codeWithUnit_eq, narrow]

@[simp] theorem codeWithUnit_done (b : Byte) (unit : Word) (s : State) : (codeWithUnit b unit s).done = s.done := by
  simp [codeWithUnit_eq, narrow]

/-- A SYM leaves a wide range, because it ends with RENORM. -/
theorem codeWithUnit_wide (b : Byte) (unit : Word) (s : State) : rangeWide (codeWithUnit b unit s) := by
  rw [codeWithUnit_eq]; exact renorm_wide _

/-- A command keeps the invariant of the table, in an open call and outside one. -/
theorem CommandEffect.keeps_table {i : Instr} {s t : State} (h : CommandEffect i s t) (hs : TableInvariant s.tbl) :
    TableInvariant t.tbl := by
  cases h with
  | ignored | emptyCall | finished | misplaced => exact hs
  | started => exact tableInit_invariant
  | coded => rw [codeWithUnit_tbl]; exact hs.afterSym _

/-- The invariant of an open call, in its two parts: the table and the range. -/
theorem callInvariant_iff (s : State) : CallInvariant s ↔ (callOpen s → TableInvariant s.tbl ∧ rangeWide s) := by
  simp only [CallInvariant, TableInvariant, and_assoc]

/-- Outside an open call the invariant asks nothing. -/
theorem callInvariant_of_closed {s : State} (h : s.phase = .idle ∨ s.phase = .fault) : CallInvariant s := fun ho => by
  rcases h with h | h <;> simp [callOpen, h] at ho

/-- A command keeps the invariant of an open call. -/
theorem CommandEffect.keeps_callInvariant {i : Instr} {s t : State} (h : CommandEffect i s t) (hs : CallInvariant s) :
    CallInvariant t := by
  cases h with
  | ignored => exact hs
  | started => exact (callInvariant_iff _).2 fun _ => ⟨tableInit_invariant, by rw [rangeWide, startCall_range]; decide⟩
  | coded hp =>
    obtain ⟨htbl, -⟩ := (callInvariant_iff _).1 hs hp
    exact (callInvariant_iff _).2 fun _ => ⟨by rw [codeWithUnit_tbl]; exact htbl.afterSym _, codeWithUnit_wide _ _ _⟩
  | emptyCall | finished => exact callInvariant_of_closed (.inl rfl)
  | misplaced => exact callInvariant_of_closed (.inr rfl)

/-! ### What every step keeps -/

/-- A command word keeps the invariant of the table. -/
theorem runWord_keeps_table {w : CmdWord} {s t : State} (h : runWord w s = .next t) (hs : TableInvariant s.tbl) :
    TableInvariant t.tbl := by
  obtain ⟨-, rfl⟩ | ⟨-, -, rfl⟩ | ⟨-, i, -, he⟩ := runWord_cases h
  · exact hs
  · exact hs
  · exact he.keeps_table hs

/-- A step that answers a next state keeps the invariant of an open call. -/
theorem step_keeps_callInvariant {s t : State} (h : step s = .next t) (hs : CallInvariant s) : CallInvariant t := by
  obtain ⟨-, hq⟩ | ⟨rest, -, hq⟩ | ⟨w, rest, -, hq⟩ := step_cases s <;> rw [hq] at h
  · cases h; exact hs
  · cases h; exact callInvariant_of_closed (.inl rfl)
  · obtain ⟨-, rfl⟩ | ⟨-, -, rfl⟩ | ⟨-, i, -, he⟩ := runWord_cases h
    · exact hs
    · exact callInvariant_of_closed (.inr rfl)
    · exact he.keeps_callInvariant hs

/-! ### What holds in every state a run reaches -/

theorem Reachable.callInvariant {s : State} (h : Reachable s) : CallInvariant s := by
  induction h with
  | reset es => exact callInvariant_of_closed (.inl rfl)
  | step s t _ hstep ih => exact step_keeps_callInvariant hstep ih

theorem InitialisedSinceReset.tableInvariant {s : State} (h : InitialisedSinceReset s) : TableInvariant s.tbl := by
  induction h with
  | start s t hp hx =>
    rw [exec_of_idle .start hp] at hx; cases hx
    exact tableInit_invariant
  | word s t w rest _ hcmd hstep ih =>
    rw [step_of_word hcmd] at hstep
    exact runWord_keeps_table hstep ih

/-- Settles O50: the table invariant, with TOTAL beside T0 and STRICT so that UPDATE cannot wrap, holds from the START on. -/
theorem tableStaysStrictOnceInitialised : Obligations.TableStaysStrictOnceInitialised := by
  intro s h
  have hinv := h.tableInvariant
  have ⟨h0, hs, _⟩ := hinv
  refine ⟨h0, hs, hs.one_le_freq, fun b _ => ?_⟩
  obtain ⟨hu0, hus, -⟩ := hinv.update b
  exact ⟨hu0, hus, tableRescale_tableZero hu0, tableRescale_strict hus⟩

/-- Settles O51: every reachable state meets the call invariant, and in a strict table the total bounds every entry. -/
theorem totalAndRangeStayInBounds : Obligations.TotalAndRangeStayInBounds := by
  intro s h ho
  obtain ⟨hinv, hr⟩ := (callInvariant_iff s).1 h.callInvariant ho
  have ⟨_, _, hmin, hmax⟩ := hinv
  refine ⟨hmin, hmax, hr, by omega, fun b => ?_⟩
  obtain ⟨-, hus, htot⟩ := hinv.update b
  refine ⟨?_, fun i => ?_⟩
  · exact (Nat.le_of_eq htot).trans (Nat.succ_le_succ hmax)
  · have hi := hinv.entry_le i
    have hu := hus.le_total i
    exact ⟨Nat.lt_of_le_of_lt hi (by decide), show (entry (tableUpdate b s.tbl) i).toNat < 2 ^ 24 by omega,
      BitVec.toNat_add_of_lt (Nat.lt_of_le_of_lt (Nat.succ_le_succ hi) (by decide))⟩

end Sys2Proof.Machine
end

section
/-! PROOFS. The writers of ERR and DONE, the registers nothing reads outside a call, and the values after reset and START (R16,
R18, R27, R28). -/

namespace Sys2Proof.Machine

/-! ### The writers of ERR and DONE -/

/-- Settles O16: by the cases of the event; each names the one writer that ran, or none, and the clauses follow. -/
theorem doneAndErrHaveTheirWriters : Obligations.DoneAndErrHaveTheirWriters := by
  refine ⟨⟨rfl, rfl, rfl, rfl⟩, fun s t e rest hcmd hstep => ?_⟩
  cases e with
  | reset =>
    rw [step_of_reset hcmd] at hstep; cases hstep
    simp
  | word w =>
    rw [step_of_word hcmd] at hstep
    have hstart := decode_eq_start_iff w
    have hfinish := decode_eq_finish_iff w
    obtain ⟨hf, rfl⟩ | ⟨hf, ⟨e, hd⟩, rfl⟩ | ⟨hf, i, hd, he⟩ := runWord_cases hstep
    · rw [setCmd_phase] at hf
      simp [callOpen, hf]
    · simp only [hd, reduceCtorEq, false_iff] at hstart hfinish
      rw [setCmd_phase] at hf
      simp [hstart, hfinish, isLegal_of_error hd, hf, causeCode, causeDone]
    · rw [hd, Except.ok.injEq] at hstart hfinish
      cases he with
      | ignored hp => exact absurd hp hf
      | started hp =>
        obtain rfl := hstart.1 rfl
        rw [setCmd_phase] at hp
        simp [hp]
      | coded =>
        simp only [reduceCtorEq, false_iff] at hstart hfinish
        simp [hstart, hfinish]
      | emptyCall hp =>
        obtain rfl := hfinish.1 rfl
        rw [setCmd_phase] at hp
        simp [callOpen, hp, causeCode, causeDone]
      | finished hp =>
        obtain rfl := hfinish.1 rfl
        rw [setCmd_phase] at hp
        simp [callOpen, hp]
      | misplaced hp =>
        obtain ⟨rfl, ho⟩ | ⟨hi, hp⟩ := hp
        · obtain rfl := hstart.1 rfl
          have hp : s.phase ≠ .idle := fun h => by simp [callOpen, h] at ho
          simp [causeCode, causeDone, hp, hd, show callOpen s from ho]
        · have hw := mt hstart.2 hi
          rw [setCmd_phase] at hp
          simp [callOpen, hp, causeCode, causeDone, hd, hi, hw]

/-! ### The dead registers -/

/-- A word in IDLE: an illegal one faults, START opens a call, the other commands are misplaced. -/
theorem runWord_of_idle (w : CmdWord) {s : State} (h : s.phase = .idle) :
    runWord w s = .next (if w = 0x0100 then startCall s else
      raiseError (if isLegal w then .badSequence else .illegalCommand) s) := by
  have hf : s.phase ≠ .fault := by simp [h]
  have hstart := decode_eq_start_iff w
  cases hd : decode w with
  | error e =>
    have hw : w ≠ 0x0100#16 := fun h => by simp [hstart.2 h] at hd
    simp [runWord_of_error hf hd, hw, isLegal_of_error hd]
  | ok i =>
    rw [hd, Except.ok.injEq] at hstart
    simp [runWord_of_ok hf hd, exec_of_idle i h, hstart, isLegal, hd]

/-- `s` with other values in the three registers that are dead outside an open call. -/
def withDead (l r : Word) (tb : Table) (s : State) : State :=
  { s with low := l, range := r, tbl := tb }

/-- In IDLE and FAULT a command word either forgets the dead registers or carries them along (R27). -/
theorem runWord_withDead (l r : Word) (tb : Table) (w : CmdWord) {s : State} (h : s.phase = .idle ∨ s.phase = .fault) :
    ∃ t, runWord w s = .next t ∧ (runWord w (withDead l r tb s) = .next t ∨
      ((t.phase = .idle ∨ t.phase = .fault) ∧ runWord w (withDead l r tb s) = .next (withDead l r tb t))) := by
  obtain h | h := h
  · have hd : (withDead l r tb s).phase = .idle := h
    refine ⟨_, runWord_of_idle w h, ?_⟩
    rw [runWord_of_idle w hd]
    split
    · exact .inl rfl
    · exact .inr ⟨.inr (by split <;> rfl), rfl⟩
  · have hd : (withDead l r tb s).phase = .fault := h
    exact ⟨s, runWord_of_fault w h, .inr ⟨.inr h, runWord_of_fault w hd⟩⟩

/-- Settles O20: START answers the same block from any two idle states; a step without an event and error entry carry the
three registers along, a reset and START write them. -/
theorem deadRegistersAreNeverRead : Obligations.DeadRegistersAreNeverRead := by
  refine ⟨fun s s' hs hs' => ⟨startCall s, exec_of_idle .start hs, exec_of_idle .start hs'⟩, fun s l r tb hp => ?_⟩
  change ∃ t, step s = .next t ∧ (step (withDead l r tb s) = .next t ∨
    ((t.phase = .idle ∨ t.phase = .fault) ∧ step (withDead l r tb s) = .next (withDead l r tb t)))
  obtain ⟨hcmd, hstep⟩ | ⟨rest, hcmd, hstep⟩ | ⟨w, rest, hcmd, hstep⟩ := step_cases s
  · exact ⟨s, hstep, .inr ⟨hp, step_of_nil (s := withDead l r tb s) hcmd⟩⟩
  · exact ⟨_, hstep, .inl (step_of_reset (s := withDead l r tb s) hcmd)⟩
  · rw [hstep, step_of_word (s := withDead l r tb s) hcmd]
    exact runWord_withDead l r tb w (s := setCmd rest s) hp

/-! ### After reset and after START -/

theorem hardwareReset_status (s : State) : status (hardwareReset s) = 0x00 := by
  simp [status, errCode, phaseCode]

theorem startCall_status (s : State) : status (startCall s) = 0x01 := by
  simp [status, errCode, phaseCode]

/-- Settles O19: what the reset event leaves holds of State.reset too, and START leaves the values of IINIT and TINIT. -/
theorem resetAndStartValues : Obligations.ResetAndStartValues :=
  ⟨⟨rfl, rfl, rfl, rfl, hardwareReset_status (setResets 0 State.reset)⟩,
    fun s => ⟨hardwareReset_out s, hardwareReset_phase s, hardwareReset_err s, hardwareReset_done s, hardwareReset_status s⟩,
    fun s hp => ⟨startCall s, exec_of_idle .start hp, startCall_low s, startCall_range s, tableInit_toNat, startCall_out s,
      startCall_phase s, startCall_err s, startCall_done s, startCall_status s⟩⟩

end Sys2Proof.Machine
end

section
/-! PROOFS. Reads and writes of TBL, and the three items that no command reads: OUT, the stream and the counter of the run.
With any others in their place a command, a word and a step do the same (R31, R33, R43). -/

namespace Sys2Proof.Machine

/-! ### The table memory -/

/-- Settles O46: a read after a write, at the entry written and at another one; a write is a write of TBL. -/
theorem tableReadsWhatWasWritten : Obligations.TableReadsWhatWasWritten := fun i j v s =>
  ⟨(memRead_memWrite i i v s).trans (if_pos rfl), fun h => (memRead_memWrite j i v s).trans (if_neg h), rfl⟩

/-! ### A command from its case -/

theorem ne_fault_of_callOpen {s : State} (h : callOpen s) : s.phase ≠ .fault := by
  rcases h with h | h <;> simp [h]

theorem acceptsStart_of_callOpen {s : State} (h : callOpen s) : acceptsStart s.phase = false := by
  rcases h with h | h <;> rw [h] <;> rfl

theorem execFinish_of_callOpen {s : State} (h : callOpen s) : exec .finish s = .next (finishCall s) := by
  rw [exec_finish_eq, guarded_of_accepts (ne_fault_of_callOpen h) ((acceptsFinish_iff _).2 h)]

theorem exec_of_fault (i : Instr) {s : State} (h : s.phase = .fault) : exec i s = .next s := by
  cases i with
  | start => rw [exec_start_eq, guarded_of_fault h]
  | sym b => rw [exec_sym_eq, guarded_of_fault h]
  | finish => rw [exec_finish_eq, guarded_of_fault h]

/-- The converse of `commandEffect_of_exec`: the cases of `CommandEffect` are the next states of `exec`. -/
theorem CommandEffect.exec_eq {i : Instr} {s t : State} (h : CommandEffect i s t) : exec i s = .next t := by
  cases h with
  | ignored hp => exact exec_of_fault i hp
  | started hp => exact exec_of_idle .start hp
  | @coded b _ hp hz =>
    rw [exec_sym_eq, guarded_of_accepts (ne_fault_of_callOpen hp) ((acceptsSym_iff _).2 hp)]
    obtain ⟨h0, -⟩ | ⟨-, hc⟩ := codeSymbol_cases b s
    · exact absurd h0 hz
    · exact hc
  | emptyCall hp => rw [execFinish_of_callOpen (.inl hp), finishCall_of_opened hp]
  | finished hp => rw [execFinish_of_callOpen (.inr hp), finishCall_of_not_opened (by simp [hp])]
  | misplaced hp =>
    obtain ⟨rfl, ho⟩ | ⟨hi, hp⟩ := hp
    · rw [exec_start_eq, guarded_of_not_accepts (ne_fault_of_callOpen ho) (acceptsStart_of_callOpen ho)]
    · rw [exec_of_idle i hp, if_neg hi]

/-! ### The items that are not read -/

/-- `s` with other values in the items that no command reads: OUT, and the run's stream and counter (R33, R43). -/
def withUnread (o : List Byte) (es : List HostEvent) (n : Nat) (s : State) : State :=
  { s with out := o, cmd := es, resets := n }

/-- Whatever stands in the items that are not read, `act` takes `s` to `t`, appends `bs` to OUT and keeps the run's two. -/
def Appends (act : State → Host.Outcome State Fault Refusal) (s t : State) (bs : List Byte) : Prop :=
  ∀ o es n, act (withUnread o es n s) = .next (withUnread (o ++ bs) es n t)

section
variable {act : State → Host.Outcome State Fault Refusal} {s t : State} {bs : List Byte}

/-- What the action does on `s` itself, by the instance at the items that stand in `s`. -/
theorem Appends.frame (ha : Appends act s t bs) (h : act s = .next t) :
    t.out = s.out ++ bs ∧ t.cmd = s.cmd ∧ t.resets = s.resets := by
  have hself : act s = .next (withUnread (s.out ++ bs) s.cmd s.resets t) := ha s.out s.cmd s.resets
  rw [h, Host.Outcome.next.injEq] at hself
  exact ⟨congrArg (·.out) hself, congrArg (·.cmd) hself, congrArg (·.resets) hself⟩

theorem Appends.of_setOut (ha : Appends act s t bs) (h : act s = .next t) (o : List Byte) :
    act (setOut o s) = .next (setOut (o ++ bs) t) := by
  obtain ⟨-, hcmd, hres⟩ := ha.frame h
  have hset : act (setOut o s) = .next (withUnread (o ++ bs) s.cmd s.resets t) := ha o s.cmd s.resets
  rw [hset, ← hcmd, ← hres]; rfl

theorem Appends.of_setCmd (ha : Appends act s t bs) (h : act s = .next t) (es : List HostEvent) :
    act (setCmd es s) = .next (setCmd es t) := by
  obtain ⟨hout, -, hres⟩ := ha.frame h
  have hset : act (setCmd es s) = .next (withUnread (s.out ++ bs) es s.resets t) := ha s.out es s.resets
  rw [hset, ← hout, ← hres]; rfl

/-- An action that does not touch the three items appends no byte. -/
theorem exists_appends_of_keeps (h : ∀ o es n, act (withUnread o es n s) = .next (withUnread o es n t)) :
    ∃ bs, bs.length ≤ 4 ∧ Appends act s t bs :=
  ⟨[], Nat.zero_le 4, fun o es n => by rw [List.append_nil]; exact h o es n⟩

end

/-- Each round of RENORM appends one byte and reads neither OUT nor the run's items. -/
theorem renormWithin_withUnread (m : Nat) (s : State) :
    ∃ bs, bs.length ≤ m ∧ ∀ o es n, renormWithin m (withUnread o es n s) = withUnread (o ++ bs) es n (renormWithin m s) := by
  induction m generalizing s with
  | zero => exact ⟨[], Nat.le_refl 0, fun o es n => by rw [List.append_nil]; rfl⟩
  | succ m ih =>
    by_cases hb : s.range ≤ Config.bottom
    · obtain ⟨bs, hlen, hbs⟩ := ih (renormStep s)
      refine ⟨msb8 s.low :: bs, Nat.succ_le_succ hlen, fun o es n => ?_⟩
      have hstep : renormStep (withUnread o es n s) = withUnread (o ++ [msb8 s.low]) es n (renormStep s) := rfl
      rw [renormWithin_of_narrow (s := withUnread o es n s) m hb, renormWithin_of_narrow m hb, hstep, hbs,
        List.append_assoc, List.singleton_append]
    · refine ⟨[], Nat.zero_le _, fun o es n => ?_⟩
      rw [renormWithin_of_wide (s := withUnread o es n s) _ hb, renormWithin_of_wide _ hb, List.append_nil]

/-- A SYM appends the at most three bytes of its RENORM and reads neither OUT nor the run's items. -/
theorem codeWithUnit_withUnread (b : Byte) (unit : Word) (s : State) :
    ∃ bs, bs.length ≤ 3 ∧
      ∀ o es n, codeWithUnit b unit (withUnread o es n s) = withUnread (o ++ bs) es n (codeWithUnit b unit s) := by
  obtain ⟨bs, hlen, hbs⟩ :=
    renormWithin_withUnread 3 (narrow unit (entry s.tbl (lowIndex b)) (entry s.tbl (highIndex b)) s)
  refine ⟨bs, hlen, fun o es n => ?_⟩
  rw [codeWithUnit_eq, codeWithUnit_eq]
  exact congrArg (fun u => setPhase .coding (setTbl (tableAfterSym b s.tbl) u)) (hbs o es n)

/-- A command appends at most four bytes and reads none of these items, but for the START that opens a call. -/
theorem exec_appends {i : Instr} {s t : State} (h : exec i s = .next t) (hstart : ¬ (i = .start ∧ s.phase = .idle)) :
    ∃ bs, bs.length ≤ 4 ∧ Appends (exec i) s t bs := by
  cases commandEffect_of_exec h with
  | ignored hp => exact exists_appends_of_keeps fun o es n => exec_of_fault i (s := withUnread o es n s) hp
  | started hp => exact absurd ⟨rfl, hp⟩ hstart
  | @coded b _ hp hz =>
    obtain ⟨bs, hlen, hbs⟩ := codeWithUnit_withUnread b (s.range / entry s.tbl totalIndex) s
    refine ⟨bs, Nat.le_succ_of_le hlen, fun o es n => ?_⟩
    rw [← hbs]
    exact (CommandEffect.coded (s := withUnread o es n s) hp hz).exec_eq
  | emptyCall hp => exact exists_appends_of_keeps fun o es n => (CommandEffect.emptyCall (s := withUnread o es n s) hp).exec_eq
  | finished hp =>
    exact ⟨bytesMsbFirst s.low, Nat.le_refl 4, fun o es n => (CommandEffect.finished (s := withUnread o es n s) hp).exec_eq⟩
  | misplaced hp => exact exists_appends_of_keeps fun o es n => (CommandEffect.misplaced (s := withUnread o es n s) hp).exec_eq

/-- A command word appends at most four bytes and reads none of these items, but for the START that opens a call. -/
theorem runWord_appends {w : CmdWord} {s t : State} (h : runWord w s = .next t) (hstart : ¬ (w = 0x0100 ∧ s.phase = .idle)) :
    ∃ bs, bs.length ≤ 4 ∧ Appends (runWord w) s t bs := by
  by_cases hf : s.phase = .fault
  · rw [runWord_of_fault w hf] at h; cases h
    exact exists_appends_of_keeps fun o es n => runWord_of_fault (s := withUnread o es n s) w hf
  · cases hd : decode w with
    | error e =>
      rw [runWord_of_error hf hd] at h; cases h
      exact exists_appends_of_keeps fun o es n => runWord_of_error (s := withUnread o es n s) hf hd
    | ok i =>
      rw [runWord_of_ok hf hd] at h
      obtain ⟨bs, hlen, hbs⟩ := exec_appends h fun ⟨hi, hp⟩ => hstart ⟨(decode_eq_start_iff w).1 (hi ▸ hd), hp⟩
      exact ⟨bs, hlen, fun o es n => (runWord_of_ok (s := withUnread o es n s) hf hd).trans (hbs o es n)⟩

/-! ### OUT -/

/-- Settles O47: START in IDLE empties OUT; every other command word and command appends bytes that do not depend on OUT. -/
theorem outIsAppendOnlyAndNeverRead : Obligations.OutIsAppendOnlyAndNeverRead := by
  refine ⟨fun s t w rest hcmd hstep => ?_, fun s t i h hstart => ?_, fun s t o h hp => ?_, fun s t h hp => ?_⟩
  · rw [step_of_word hcmd] at hstep
    by_cases hstart : w = 0x0100 ∧ s.phase = .idle
    · obtain ⟨hw, hp⟩ := hstart
      rw [runWord_of_idle w (s := setCmd rest s) hp, if_pos hw] at hstep; cases hstep
      exact .inl ⟨hw, hp, rfl⟩
    · obtain ⟨bs, hlen, hbs⟩ := runWord_appends hstep hstart
      exact .inr ⟨bs, (hbs.frame hstep).1, hlen⟩
  · obtain ⟨bs, -, hbs⟩ := exec_appends h hstart
    exact ⟨bs, (hbs.frame h).1, hbs.of_setOut h⟩
  · rw [exec_of_idle .start hp] at h; cases h
    exact exec_of_idle .start (s := setOut o s) hp
  · rw [exec_of_idle .start hp] at h; cases h
    rfl

/-! ### The stream -/

/-- An event leaves the stream behind it alone and does the same with any other stream behind it (R43). -/
theorem runEvent_setCmd {e : HostEvent} {s t : State} (h : runEvent e s = .next t) :
    t.cmd = s.cmd ∧ ∀ es, runEvent e (setCmd es s) = .next (setCmd es t) := by
  cases e with
  | reset =>
    cases h
    exact ⟨rfl, fun _ => rfl⟩
  | word w =>
    change runWord w s = .next t at h
    by_cases hstart : w = 0x0100 ∧ s.phase = .idle
    · obtain ⟨hw, hp⟩ := hstart
      rw [runWord_of_idle w hp, if_pos hw] at h; cases h
      refine ⟨rfl, fun es => ?_⟩
      change runWord w (setCmd es s) = .next (startCall (setCmd es s))
      rw [runWord_of_idle w (s := setCmd es s) hp, if_pos hw]
    · obtain ⟨bs, -, hbs⟩ := runWord_appends h hstart
      obtain ⟨-, hcmd, -⟩ := hbs.frame h
      exact ⟨hcmd, hbs.of_setCmd h⟩

/-- A step with an event at the head is that event, run on the state with the event consumed. -/
theorem step_of_cons {s : State} {e : HostEvent} {rest : List HostEvent} (h : s.cmd = e :: rest) :
    step s = runEvent e (setCmd rest s) := by
  cases e with
  | reset => exact step_of_reset h
  | word w => exact step_of_word h

/-- Settles O7: the step runs the event at the head on the state without it, and no event touches the stream behind it. -/
theorem eventsAreConsumedInOrder : Obligations.EventsAreConsumedInOrder := by
  refine ⟨fun s t e rest hcmd hstep => ?_, fun s t e rest later hcmd hstep => ?_⟩
  · rw [step_of_cons hcmd] at hstep
    exact (runEvent_setCmd hstep).1
  · rw [step_of_cons hcmd] at hstep
    rw [step_of_cons (s := { s with cmd := e :: later }) rfl]
    exact (runEvent_setCmd hstep).2 later

end Sys2Proof.Machine
end

section
/-! PROOFS. The opcode table against the decoder: each row in terms of OPC and ARG, the rows a word selects, and the legal words
as a range of numbers, from which they are counted (R47 to R49). -/

namespace Sys2Proof.Machine

/-! ### The two fields of a word -/

theorem opcOf_append_argOf (w : CmdWord) : opcOf w ++ argOf w = w :=
  BitVec.extractLsb'_append_extractLsb'

theorem opcOf_append (a b : Byte) : opcOf (a ++ b) = a :=
  BitVec.extractLsb'_append_eq_left

theorem opcOf_toNat (w : CmdWord) : (opcOf w).toNat = w.toNat / 256 := by
  rw [opcOf, BitVec.extractLsb'_toNat, Nat.shiftRight_eq_div_pow]; omega

theorem argOf_toNat (w : CmdWord) : (argOf w).toNat = w.toNat % 256 := by
  rw [argOf, BitVec.extractLsb'_toNat, Nat.shiftRight_zero]

/-! ### The rows of the opcode table -/

/-- The row of the opcode table that a command stands on. -/
def rowOf (i : Instr) : OpcodeRow :=
  match i with
  | .start => ⟨"START", 0xFFFF, 0x0100⟩
  | .sym _ => ⟨"SYM", 0xFF00, 0x0200⟩
  | .finish => ⟨"FINISH", 0xFFFF, 0x0300⟩

theorem opcodeTable_eq (b : Byte) : opcodeTable = [rowOf .start, rowOf (.sym b), rowOf .finish] := rfl

theorem rowOf_mnemonic (i : Instr) : (rowOf i).mnemonic = mnemonicOf i := by
  cases i <;> rfl

theorem rowMatches_start (w : CmdWord) : rowMatches (rowOf .start) w = decide (w = 0x0100#16) :=
  congrArg (fun v => decide (v = 0x0100#16)) BitVec.and_allOnes

theorem rowMatches_finish (w : CmdWord) : rowMatches (rowOf .finish) w = decide (w = 0x0300#16) :=
  congrArg (fun v => decide (v = 0x0300#16)) BitVec.and_allOnes

/-- The mask of SYM keeps OPC and clears ARG. -/
theorem and_opcMask (w : CmdWord) : w &&& 0xFF00 = opcOf w ++ (0 : Byte) := by
  calc w &&& 0xFF00 = (opcOf w ++ argOf w) &&& (BitVec.allOnes 8 ++ (0 : Byte)) := by rw [opcOf_append_argOf]; rfl
    _ = opcOf w ++ (0 : Byte) := by rw [BitVec.and_append, BitVec.and_allOnes]; simp

theorem rowMatches_sym (b : Byte) (w : CmdWord) : rowMatches (rowOf (.sym b)) w = decide (opcOf w = 0x02#8) := by
  have hrow : w &&& 0xFF00 = 0x0200 ↔ opcOf w = 0x02#8 := by
    rw [and_opcMask]
    exact ⟨fun h => (opcOf_append _ _).symm.trans (congrArg opcOf h), fun h => by rw [h]; rfl⟩
  exact decide_eq_decide.2 hrow

/-- The rows a word selects are the row of the command it decodes to, and none when it decodes to none (R47). -/
theorem matchingRows_eq (w : CmdWord) :
    opcodeTable.filter (rowMatches · w) = (decode w).toOption.toList.map rowOf := by
  rw [opcodeTable_eq (argOf w), decode]
  simp only [List.filter, rowMatches_start, rowMatches_sym, rowMatches_finish]
  by_cases hs : w = 0x0100#16
  · subst hs; decide
  · by_cases hf : w = 0x0300#16
    · subst hf; decide
    · by_cases ho : opcOf w = 0x02#8 <;> simp [hs, ho, hf, Except.toOption]

/-! ### The legal words -/

theorem isLegal_iff_exists (w : CmdWord) : isLegal w = true ↔ ∃ i, decode w = .ok i := by
  cases h : decode w <;> simp [isLegal, h]

theorem decode_eq_illegal_iff (w : CmdWord) : decode w = .error (.illegal w) ↔ isLegal w = false := by
  refine ⟨isLegal_of_error, fun h => ?_⟩
  unfold isLegal decode at h
  unfold decode
  split_ifs at h ⊢
  rfl

theorem isLegal_iff_row (w : CmdWord) : isLegal w = true ↔ ∃ r ∈ opcodeTable, rowMatches r w = true := by
  have hrows : (∃ r ∈ opcodeTable, rowMatches r w = true) ↔ ∃ r, r ∈ (decode w).toOption.toList.map rowOf := by
    simp only [← matchingRows_eq, List.mem_filter]
  rw [hrows]
  cases h : decode w <;> simp [isLegal, h, Except.toOption]

theorem isLegal_eq_false_iff_no_row (w : CmdWord) :
    isLegal w = false ↔ ∀ r ∈ opcodeTable, rowMatches r w = false := by
  rw [← Bool.not_eq_true, isLegal_iff_row]
  simp

/-- START is 0x0100, the SYMs are 0x0200 to 0x02FF, FINISH is 0x0300, the number after them (R47). -/
theorem isLegal_iff_toNat (w : CmdWord) :
    isLegal w = true ↔ w.toNat = 0x0100 ∨ 0x0200 ≤ w.toNat ∧ w.toNat ≤ 0x0300 := by
  have hfields : isLegal w = true ↔ w = 0x0100#16 ∨ opcOf w = 0x02#8 ∨ w = 0x0300#16 := by
    simp [isLegal_iff_row, opcodeTable_eq (argOf w), rowMatches_start, rowMatches_sym, rowMatches_finish]
  have hstart : w = 0x0100#16 ↔ w.toNat = 0x0100 := BitVec.toNat_inj.symm
  have hfinish : w = 0x0300#16 ↔ w.toNat = 0x0300 := BitVec.toNat_inj.symm
  have hsym : opcOf w = 0x02#8 ↔ w.toNat / 256 = 2 := by rw [← opcOf_toNat]; exact BitVec.toNat_inj.symm
  rw [hfields, hstart, hfinish, hsym]
  omega

theorem isLegal_eq_false_iff_toNat (w : CmdWord) :
    isLegal w = false ↔ ¬ (w.toNat = 0x0100 ∨ 0x0200 ≤ w.toNat ∧ w.toNat ≤ 0x0300) := by
  rw [← isLegal_iff_toNat, Bool.not_eq_true]

/-- The 16-bit numbers that are legal words. -/
theorem filter_isLegal :
    (Finset.range 65536).filter (fun n => isLegal (BitVec.ofNat 16 n) = true) = insert 0x0100 (Finset.Icc 0x0200 0x0300) := by
  ext n
  simp only [Finset.mem_filter, Finset.mem_range, isLegal_iff_toNat, BitVec.toNat_ofNat, Finset.mem_insert, Finset.mem_Icc]
  omega

theorem card_isLegal : ((Finset.range 65536).filter (fun n => isLegal (BitVec.ofNat 16 n) = true)).card = 258 := by
  rw [filter_isLegal, Finset.card_insert_of_notMem (by simp), Nat.card_Icc]

/-- The illegal words are the rest of the 65536 words (R48). -/
theorem filter_illegal :
    (Finset.range 65536).filter (fun n => isLegal (BitVec.ofNat 16 n) = false) =
      Finset.range 65536 \ (Finset.range 65536).filter (fun n => isLegal (BitVec.ofNat 16 n) = true) := by
  ext n
  by_cases hn : n < 65536 <;> simp [hn]

theorem card_illegal : ((Finset.range 65536).filter (fun n => isLegal (BitVec.ofNat 16 n) = false)).card = 65278 := by
  rw [filter_illegal, Finset.card_sdiff_of_subset (Finset.filter_subset _ _), card_isLegal, Finset.card_range]

/-- The illegal words with the OPC of START or FINISH: the two rows of 256 without their one legal word (R48). -/
theorem filter_illegal_opc :
    (Finset.range 65536).filter (fun n => isLegal (BitVec.ofNat 16 n) = false ∧
      ((opcOf (BitVec.ofNat 16 n)).toNat = 1 ∨ (opcOf (BitVec.ofNat 16 n)).toNat = 3)) =
    Finset.Icc 0x0101 0x01FF ∪ Finset.Icc 0x0301 0x03FF := by
  ext n
  simp only [Finset.mem_filter, Finset.mem_range, isLegal_eq_false_iff_toNat, opcOf_toNat, BitVec.toNat_ofNat,
    Finset.mem_union, Finset.mem_Icc]
  omega

theorem card_illegal_opc :
    ((Finset.range 65536).filter (fun n => isLegal (BitVec.ofNat 16 n) = false ∧
      ((opcOf (BitVec.ofNat 16 n)).toNat = 1 ∨ (opcOf (BitVec.ofNat 16 n)).toNat = 3))).card = 510 := by
  have hdisj : Disjoint (Finset.Icc 0x0101 0x01FF) (Finset.Icc 0x0301 0x03FF) :=
    Finset.disjoint_left.2 fun n hs hf => by rw [Finset.mem_Icc] at hs hf; omega
  rw [filter_illegal_opc, Finset.card_union_of_disjoint hdisj, Nat.card_Icc, Nat.card_Icc]

/-! ### The two statements -/

/-- Settles O1: the rows a word selects are the list `matchingRows_eq` gives, which has one row at most. -/
theorem decodeMatchesOpcodeTable : Obligations.DecodeMatchesOpcodeTable := by
  refine ⟨fun w => ?_, fun w i h => ?_, fun w h => ?_, card_isLegal⟩
  · rw [matchingRows_eq, List.length_map]
    exact Option.length_toList_le
  · rw [matchingRows_eq, h, ← rowOf_mnemonic]; rfl
  · exact (isLegal_iff_exists w).1 ((isLegal_iff_row w).2 h)

/-- Settles O2: the legal words are those of R47 as numbers; an illegal word outside FAULT runs into `raiseError`. -/
theorem illegalWordsAreTheOthers : Obligations.IllegalWordsAreTheOthers := by
  refine ⟨isLegal_eq_false_iff_no_row, fun w => ?_, card_illegal, card_illegal_opc, by decide, by decide,
    fun s w rest hcmd hill hp => ?_⟩
  · rw [decode_eq_illegal_iff, isLegal_eq_false_iff_toNat, opcOf_toNat, argOf_toNat]
    omega
  · rw [step_of_word hcmd, runWord_of_error (s := setCmd rest s) hp ((decode_eq_illegal_iff w).2 hill)]
    rfl

end Sys2Proof.Machine
end

section
/-! PROOFS. The loops of R55, R57 and R59, one access to TBL at a time, against the one-pass table functions. -/

namespace Sys2Proof.Machine

/-! ### A loop that rewrites entries -/

/-- Rewriting each entry of a list of distinct indices from its own old value leaves exactly the table that holds the new
values at these indices and the old ones elsewhere. -/
theorem foldl_memWrite (f : Fin 257 → Word → Word) {l : List (Fin 257)} (hl : l.Nodup) {t : Table} {s : State}
    (ht : ∀ j, entry t j = if j ∈ l then f j (memRead j s) else memRead j s) :
    l.foldl (fun u i => memWrite i (f i (memRead i u)) u) s = setTbl t s := by
  induction l generalizing s with
  | nil =>
    have htbl : t = s.tbl := table_ext fun j => (ht j).trans (if_neg List.not_mem_nil)
    rw [htbl, setTbl_self, List.foldl_nil]
  | cons i l ih =>
    obtain ⟨hi, hl⟩ := List.nodup_cons.1 hl
    refine ih hl (s := memWrite i (f i (memRead i s)) s) fun j => ?_
    rw [ht j, memRead_memWrite]
    by_cases hj : j = i
    · subst hj; simp [hi]
    · simp [hj]

theorem tinit_eq_tinitLoop (s : State) : tinit s = tinitLoop s :=
  (foldl_memWrite (fun i _ => BitVec.ofNat 32 i.val) (List.nodup_finRange 257) fun j => by
    rw [tableInit_get, if_pos (List.mem_finRange j)]).symm

theorem mem_drop_finRange {n k : Nat} (i : Fin n) : i ∈ (List.finRange n).drop k ↔ k ≤ i.val := by
  rw [List.mem_drop_iff_getElem]
  constructor
  · rintro ⟨j, hj, rfl⟩; simp
  · intro h
    exact ⟨i.val - k, by rw [List.length_finRange]; omega, by simp [Nat.add_sub_cancel' h]⟩

theorem update_eq_updateLoop (b : Byte) (s : State) : update b s = updateLoop b s :=
  (foldl_memWrite (fun _ v => add32 v 1) ((List.nodup_finRange 257).drop) fun j => by
    rw [tableUpdate_get]
    by_cases hj : j.val ≤ b.toNat
    · rw [if_pos hj, if_neg (by rw [mem_drop_finRange]; omega)]; rfl
    · rw [if_neg hj, if_pos (by rw [mem_drop_finRange]; omega)]; rfl).symm

/-! ### The in-place loop of RESCALE -/

/-- A property indexed by the passes done, kept by every pass, holds when all are done. -/
theorem foldl_finRange_induct {α : Type} {n : Nat} (P : Fin (n + 1) → α → Prop) (f : α → Fin n → α) (a : α) (h0 : P 0 a)
    (hstep : ∀ i a, P i.castSucc a → P i.succ (f a i)) : P (Fin.last n) ((List.finRange n).foldl f a) := by
  induction n with
  | zero => exact h0
  | succ n ih =>
    rw [List.finRange_succ_last, List.foldl_append, List.foldl_map]
    exact hstep (Fin.last n) _ (ih (fun i => P i.castSucc) (fun a i => f a i.castSucc) h0 fun i => hstep i.castSucc)

/-- A write of an entry keeps what has been written so far a write of TBL. -/
theorem memWrite_eq_setTbl {u s : State} (h : u = setTbl u.tbl s) (i : Fin 257) (v : Word) :
    memWrite i v u = setTbl (memWrite i v u).tbl s :=
  (congrArg (setTbl (u.tbl.set i v)) h).trans (setTbl_setTbl _ _ s)

/-- The loop of R59 before the pass of index `n`: `prev_old` is the old entry `n`, the entries up to `n` are rescaled, the
later ones still hold the old table, and no other item has been written. -/
def RescaledUpTo (s : State) (n : Fin 257) (p : State × Word) : Prop :=
  p.2 = memRead n s ∧ p.1 = setTbl p.1.tbl s ∧
    ∀ j, memRead j p.1 = if j ≤ n then entry (tableRescale s.tbl) j else memRead j s

theorem rescaledUpTo_zero (s : State) : RescaledUpTo s 0 (s, memRead 0 s) := by
  refine ⟨rfl, rfl, fun j => ?_⟩
  split
  case isTrue hj => rw [Fin.le_zero_iff.1 hj, tableRescale_zero]; rfl
  case isFalse => rfl

theorem RescaledUpTo.pass {s : State} {i : Fin 256} {p : State × Word} (h : RescaledUpTo s i.castSucc p) :
    RescaledUpTo s i.succ (rescalePass p i) := by
  obtain ⟨hprev, hframe, hread⟩ := h
  have hnext : memRead i.succ p.1 = memRead i.succ s :=
    (hread _).trans (if_neg (Fin.not_le.2 i.castSucc_lt_succ))
  have hlast : memRead i.castSucc p.1 = entry (tableRescale s.tbl) i.castSucc :=
    (hread _).trans (if_pos (Fin.le_refl _))
  refine ⟨hnext, memWrite_eq_setTbl hframe _ _, fun j => ?_⟩
  rw [rescalePass, memRead_memWrite]
  by_cases hj : j = i.succ
  · rw [if_pos hj, if_pos (Fin.le_of_eq hj), hj, tableRescale_succ, hlast, hnext, hprev]; rfl
  · have hle : j ≤ i.succ ↔ j ≤ i.castSucc := by
      simp only [Fin.le_def, Fin.ext_iff, Fin.val_succ, Fin.val_castSucc] at hj ⊢; omega
    simp only [if_neg hj, hread, hle]

theorem rescale_eq_rescaleLoop (s : State) : rescale s = rescaleLoop s := by
  obtain ⟨-, hframe, hread⟩ :=
    foldl_finRange_induct (RescaledUpTo s) rescalePass _ (rescaledUpTo_zero s) fun _ _ => RescaledUpTo.pass
  have htbl := table_ext fun j => (hread j).trans (if_pos (Fin.le_last j))
  rw [rescaleLoop, hframe, htbl, rescale]

end Sys2Proof.Machine
end

section
/-! PROOFS. The frequencies: the gaps of the table, what TINIT, UPDATE and RESCALE do to them, and the table as their running
sum (R55 to R60, R62). -/

namespace Sys2Proof.Machine

/-! ### Frequencies and gaps -/

theorem ofNat_val_eq_ofFin (i : Fin 256) : BitVec.ofNat 8 i.val = BitVec.ofFin i :=
  BitVec.eq_of_toNat_eq (Nat.mod_eq_of_lt i.isLt)

/-- The frequency of the symbol with index `i` is the gap above entry `i`. -/
theorem freq_ofFin (t : Table) (i : Fin 256) : freq t (BitVec.ofFin i) = entry t i.succ - entry t i.castSucc := rfl

/-- Each entry is the one before it plus the frequency between them. -/
theorem entry_succ_eq_add_freq (t : Table) (i : Fin 256) :
    entry t i.succ = entry t i.castSucc + freq t (BitVec.ofFin i) := by
  rw [freq_ofFin, add_sub_cancel]

/-- In a strict table a frequency is an exact difference (R62). -/
theorem tableStrict.freq_toNat {t : Table} (h : tableStrict t) (b : Byte) :
    (freq t b).toNat = (entry t (highIndex b)).toNat - (entry t (lowIndex b)).toNat := by
  have hb := h b
  exact BitVec.toNat_sub_of_le (BitVec.le_def.2 (by omega))

/-! ### TINIT, UPDATE and RESCALE on the frequencies -/

theorem freq_tableInit (b : Byte) : freq tableInit b = 1 := by
  apply BitVec.eq_of_toNat_eq
  rw [tableInit_strict.freq_toNat, tableInit_toNat, tableInit_toNat, lowIndex_val, highIndex_val, Nat.add_sub_cancel_left]
  rfl

/-- UPDATE(b) counts one occurrence of `b`: both bounds of a symbol below `b` stay, both of one above `b` move. -/
theorem freq_tableUpdate (b c : Byte) (t : Table) :
    freq (tableUpdate b t) c = if c = b then freq t c + 1 else freq t c := by
  have hcb : c = b ↔ c.toNat = b.toNat := BitVec.toNat_inj.symm
  simp only [freq, sub32]
  obtain hlt | heq | hgt := Nat.lt_trichotomy c.toNat b.toNat
  · rw [tableUpdate_of_le t (i := highIndex c) hlt, tableUpdate_of_le t (i := lowIndex c) hlt.le,
      if_neg (mt hcb.1 hlt.ne)]
  · rw [tableUpdate_of_gt t (i := highIndex c) (Nat.lt_succ_of_le heq.ge), tableUpdate_of_le t (i := lowIndex c) heq.le,
      if_pos (hcb.2 heq), sub_add_eq_add_sub]
  · rw [tableUpdate_of_gt t (i := highIndex c) (Nat.lt_succ_of_lt hgt), tableUpdate_of_gt t (i := lowIndex c) hgt,
      if_neg (mt hcb.1 hgt.ne'), add_sub_add_right_eq_sub]

/-- RESCALE halves every gap, in every table, because each new entry is built on the new entry before it. -/
theorem freq_tableRescale (t : Table) (b : Byte) : freq (tableRescale t) b = halve (freq t b) := by
  have h := tableRescale_succ t b.toFin
  rw [← sub_eq_iff_eq_add'] at h
  exact h

theorem freq_tableRescale_toNat (t : Table) (b : Byte) : (freq (tableRescale t) b).toNat = (freq t b).toNat / 2 + 1 := by
  rw [freq_tableRescale, halve_toNat]

/-! ### The table as the running sum of its frequencies -/

/-- A strict table from 0 is the running sum of its frequencies (R62). -/
theorem entry_eq_sum_freq {t : Table} (h0 : tableZero t) (h : tableStrict t) (i : Fin 257) :
    (entry t i).toNat = ∑ j ∈ Finset.range i.val, (freq t (BitVec.ofNat 8 j)).toNat := by
  induction i using Fin.induction with
  | zero => rw [show entry t 0 = 0 from h0]; rfl
  | succ i ih =>
    have hi := (tableStrict_iff_succ t).1 h i
    have hfreq : (freq t (BitVec.ofNat 8 i.val)).toNat = (entry t i.succ).toNat - (entry t i.castSucc).toNat := by
      rw [ofNat_val_eq_ofFin]; exact h.freq_toNat (BitVec.ofFin i)
    rw [Fin.val_succ, Finset.sum_range_succ, hfreq]
    rw [Fin.val_castSucc] at ih
    omega

/-- The total is the sum of the 256 frequencies, indexed as `oddCount` indexes them. -/
theorem total_eq_sum_freq {t : Table} (h0 : tableZero t) (h : tableStrict t) :
    (entry t totalIndex).toNat = ∑ i : Fin 256, (freq t (BitVec.ofFin i)).toNat := by
  rw [entry_eq_sum_freq h0 h, totalIndex_val, Finset.sum_range]
  exact Finset.sum_congr rfl fun i _ => by rw [ofNat_val_eq_ofFin]

/-- Equal frequencies from equal `T[0]` give equal tables. -/
theorem table_eq_of_freq_eq {t u : Table} (h0 : entry t 0 = entry u 0) (h : ∀ b, freq t b = freq u b) : t = u :=
  table_ext fun i => by
    induction i using Fin.induction with
    | zero => exact h0
    | succ i ih => rw [entry_succ_eq_add_freq, entry_succ_eq_add_freq, ih, h]

/-! ### The total after RESCALE -/

theorem oddCount_eq_sum (t : Table) : oddCount t = ∑ i : Fin 256, (freq t (BitVec.ofFin i)).toNat % 2 := by
  rw [oddCount, Finset.card_filter]
  refine Finset.sum_congr rfl fun i _ => ?_
  split <;> omega

theorem oddCount_le (t : Table) : oddCount t ≤ 256 :=
  (Finset.card_le_univ _).trans_eq (Fintype.card_fin 256)

/-- Summing `f = 2 * (f / 2) + f % 2` over the symbols: twice the total after RESCALE, less the 256 ones RESCALE adds, and the
odd frequencies are the total before. -/
theorem total_eq_rescaled {t : Table} (h0 : tableZero t) (h : tableStrict t) :
    (entry t totalIndex).toNat + 512 = 2 * (entry (tableRescale t) totalIndex).toNat + oddCount t := by
  have hones : 512 = ∑ _i : Fin 256, 2 := by simp
  rw [total_eq_sum_freq h0 h, total_eq_sum_freq (tableRescale_tableZero h0) (tableRescale_strict h), oddCount_eq_sum,
    Finset.mul_sum, hones, ← Finset.sum_add_distrib, ← Finset.sum_add_distrib]
  refine Finset.sum_congr rfl fun i _ => ?_
  rw [freq_tableRescale_toNat]
  omega

/-- The bounds on the total after a RESCALE from `2^23 + 1`: the number of odd frequencies is odd (R60). -/
theorem tableRescale_total_bounds {t : Table} (h0 : tableZero t) (h : tableStrict t)
    (htot : (entry t totalIndex).toNat = 8388609) :
    oddCount t % 2 = 1 ∧ oddCount t ≤ 255 ∧ 4194433 ≤ (entry (tableRescale t) totalIndex).toNat ∧
      (entry (tableRescale t) totalIndex).toNat ≤ 4194560 := by
  have hsum := total_eq_rescaled h0 h
  have hle := oddCount_le t
  omega

/-! ### The statements on the four micro-operations and on the frequencies -/

/-- Settles O25: entry by entry from `tableInit`, and the loop writes each index once. -/
theorem tinitFillsTheTable : Obligations.TinitFillsTheTable := fun s =>
  ⟨tinit_eq_tinitLoop s, tableInit_toNat, freq_tableInit, tableInit_get totalIndex, rfl⟩

/-- Settles O26: the three reads, and their relations from T0, STRICT and TOTAL. -/
theorem lookupReturnsTheBounds : Obligations.LookupReturnsTheBounds := by
  refine fun b s => ⟨⟨rfl, rfl, rfl, rfl, rfl⟩, fun hb => by rw [hb]; rfl, fun ho hinv => ?_⟩
  obtain ⟨h0, hs, ⟨hmin, hmax⟩, -⟩ := hinv ho
  exact ⟨BitVec.lt_def.2 (hs b), BitVec.le_def.2 (hs.le_total (highIndex b)), rfl, hs.one_le_freq b, hmin, hmax,
    fun hb => by rw [hb]; exact h0⟩

/-- Settles O27: entry by entry, and each frequency by where its symbol stands against `b`. -/
theorem updateCountsOneOccurrence : Obligations.UpdateCountsOneOccurrence := by
  intro b s
  refine ⟨update_eq_updateLoop b s, tableUpdate_get b s.tbl, ?own, fun c hc => ?other,
    tableUpdate_of_gt s.tbl (i := totalIndex) b.isLt, tableUpdate_of_le s.tbl (Nat.zero_le _), fun i hi hb => ?noWrap, rfl⟩
  case own => exact (freq_tableUpdate b b s.tbl).trans (if_pos rfl)
  case other => exact (freq_tableUpdate b c s.tbl).trans (if_neg hc)
  case noWrap =>
    have h := tableUpdate_toNat b (t := s.tbl) (Nat.lt_of_le_of_lt (Nat.succ_le_succ hi) (by decide))
    rwa [if_neg (Nat.not_le_of_lt hb)] at h

/-- Settles O29: the loop carries the old entry along, and the frequencies are the gaps, each halved. -/
theorem rescaleHalvesTheModel : Obligations.RescaleHalvesTheModel := fun s =>
  ⟨rescale_eq_rescaleLoop s, tableRescale_zero s.tbl, tableRescale_succ s.tbl, freq_tableRescale_toNat s.tbl, rfl⟩

/-- Settles O30: (a) to (c) and (e) gap by gap, (d) from the sum over the symbols. -/
theorem rescalePostconditions : Obligations.RescalePostconditions := by
  intro t h0 h
  have hsum := total_eq_rescaled h0 h
  have hmin := (tableRescale_strict h).le_total_of_zero (tableRescale_tableZero h0)
  refine ⟨tableRescale_tableZero h0, tableRescale_strict h, freq_tableRescale_toNat t, by omega, by omega, by omega,
    fun htot => ?bounds, fun b c hbc => ?order⟩
  case bounds =>
    obtain ⟨hodd, hle, hlow, hhigh⟩ := tableRescale_total_bounds h0 h htot
    exact ⟨hodd, by omega, hle, hlow, hhigh⟩
  case order =>
    rw [freq_tableRescale_toNat, freq_tableRescale_toNat]
    exact Nat.succ_le_succ (Nat.div_le_div_right hbc)

/-- Settles O32: exact gaps, their running sum, and the induction along the table that rebuilds it from them. -/
theorem frequenciesDetermineTheTable : Obligations.FrequenciesDetermineTheTable :=
  ⟨fun _ h0 h => ⟨fun b => ⟨h.freq_toNat b, h.one_le_freq b⟩, entry_eq_sum_freq h0 h, entry_eq_sum_freq h0 h totalIndex⟩,
    fun _ _ ht hu h => table_eq_of_freq_eq (ht.trans hu.symm) h⟩

end Sys2Proof.Machine
end

section
/-! PROOFS. When RESCALE runs: the check after each SYM's UPDATE, and how the total moves along the SYMs of a call (R58, R61). -/

namespace Sys2Proof.Machine

/-! ### The check -/

theorem rescaleCheck_iff (s : State) : rescaleCheck s = true ↔ 8388608 < (memRead totalIndex s).toNat :=
  decide_eq_true_iff.trans BitVec.lt_def

/-- The table a SYM leaves, through the check on the updated state (R58). -/
theorem tableAfterSym_eq_ite_rescaleCheck (b : Byte) (s : State) :
    tableAfterSym b s.tbl = if rescaleCheck (update b s) then (rescale (update b s)).tbl else (update b s).tbl := by
  simp only [rescaleCheck, decide_eq_true_eq]; rfl

/-- Settles O28: the comparison, the table of `CommandEffect.coded`, and that of every case of START and FINISH. -/
theorem rescaleCheckIsStrict : Obligations.RescaleCheckIsStrict := by
  refine ⟨rescaleCheck_iff, fun b s ho hz => ?sym, fun s t h => ?start, fun s t h => ?finish⟩
  case sym =>
    exact ⟨_, (CommandEffect.coded ho hz).exec_eq,
      (codeWithUnit_tbl b _ s).trans (tableAfterSym_eq_ite_rescaleCheck b s)⟩
  case start =>
    cases commandEffect_of_exec h with
    | started => exact .inl rfl
    | ignored | misplaced => exact .inr rfl
  case finish =>
    cases commandEffect_of_exec h with
    | ignored | emptyCall | finished | misplaced => rfl

/-! ### One SYM of an open call -/

section
variable {s : State} (ho : callOpen s) (hinv : CallInvariant s)
include ho hinv

theorem CallInvariant.tableInvariant : TableInvariant s.tbl :=
  ((callInvariant_iff s).1 hinv ho).1

/-- In an open call the check can only be true when the total stands at the limit, whatever the symbol is. -/
theorem CallInvariant.rescaleCheck_update_iff (b : Byte) :
    rescaleCheck (update b s) = true ↔ (memRead totalIndex s).toNat = 8388608 := by
  have htbl := hinv.tableInvariant ho
  obtain ⟨-, -, htot⟩ := htbl.update b
  have hmax : (memRead totalIndex s).toNat ≤ 8388608 := htbl.entry_le totalIndex
  have hupd : (memRead totalIndex (update b s)).toNat = (memRead totalIndex s).toNat + 1 := htot
  rw [rescaleCheck_iff]
  omega

/-- A SYM of an open call codes its symbol: the total is at least 256, so the division has a result. -/
theorem CallInvariant.exec_sym (b : Byte) :
    exec (.sym b) s = .next (codeWithUnit b (s.range / memRead totalIndex s) s) := by
  obtain ⟨-, -, hmin, -⟩ := hinv.tableInvariant ho
  refine (CommandEffect.coded ho fun h => ?_).exec_eq
  rw [h] at hmin
  exact absurd hmin (by decide)

/-- A SYM below the limit keeps the call open, keeps the invariant and adds 1 to the total. -/
theorem CallInvariant.exec_sym_total (b : Byte) (hlim : (memRead totalIndex s).toNat < 8388608) :
    ∃ t, exec (.sym b) s = .next t ∧ callOpen t ∧ CallInvariant t ∧
      (memRead totalIndex t).toNat = (memRead totalIndex s).toNat + 1 := by
  have hexec := hinv.exec_sym ho b
  refine ⟨_, hexec, .inr (codeWithUnit_phase _ _ _), (commandEffect_of_exec hexec).keeps_callInvariant hinv, ?_⟩
  have hcheck : ¬ rescaleCheck (update b s) = true := by rw [hinv.rescaleCheck_update_iff ho]; omega
  obtain ⟨-, -, htot⟩ := (hinv.tableInvariant ho).update b
  rw [memRead, codeWithUnit_tbl, tableAfterSym_eq_ite_rescaleCheck, if_neg hcheck]
  exact htot

end

/-! ### The SYMs up to the limit -/

theorem execAll_cons_of_next {i : Instr} {is : List Instr} {s t : State} (h : exec i s = .next t) :
    execAll (i :: is) s = execAll is t := by
  rw [execAll, h]

/-- As long as the total does not pass the limit, each SYM adds 1 to it. -/
theorem execAll_syms_total {s : State} {x : List Byte} (ho : callOpen s) (hinv : CallInvariant s)
    (hlim : (memRead totalIndex s).toNat + x.length ≤ 8388608) :
    ∃ t, execAll (x.map Instr.sym) s = .next t ∧ callOpen t ∧ CallInvariant t ∧
      (memRead totalIndex t).toNat = (memRead totalIndex s).toNat + x.length := by
  induction x generalizing s with
  | nil => exact ⟨s, rfl, ho, hinv, rfl⟩
  | cons b x ih =>
    rw [List.length_cons] at hlim ⊢
    obtain ⟨u, hexec, hou, hiu, hu⟩ := hinv.exec_sym_total ho b (by omega)
    obtain ⟨t, hall, hot, hit, ht⟩ := ih hou hiu (by omega)
    exact ⟨t, (execAll_cons_of_next hexec).trans hall, hot, hit, by omega⟩

/-- START opens a call that meets the invariant, with the total 256. -/
theorem startCall_total (s : State) : (memRead totalIndex (startCall s)).toNat = 256 :=
  tableInit_toNat totalIndex

theorem startCall_callInvariant {s : State} (h : s.phase = .idle) : CallInvariant (startCall s) :=
  (CommandEffect.started h).keeps_callInvariant (callInvariant_of_closed (.inl h))

/-- Settles O31: the total counts the symbols up to the limit, the check is true at the limit only, and the total after it
lies within the bounds of R60. -/
theorem rescaleTiming : Obligations.RescaleTiming := by
  refine ⟨fun b s ho hinv hcheck => ?atLimit, fun s x hp hlen => ?fromStart, fun s x ho hinv hlim => ?fromOpen,
    fun b s t ho hinv hcheck hexec => ?afterRescale⟩
  case atLimit =>
    obtain ⟨-, -, htot⟩ := (hinv.tableInvariant ho).update b
    exact htot.trans (congrArg (· + 1) ((hinv.rescaleCheck_update_iff ho b).1 hcheck))
  case fromStart =>
    have hstart := startCall_total s
    obtain ⟨t, hall, hot, hit, ht⟩ :=
      execAll_syms_total (x := x) (.inl rfl) (startCall_callInvariant hp) (by omega)
    rw [hstart] at ht
    refine ⟨t, (execAll_cons_of_next (CommandEffect.started hp).exec_eq).trans hall, ht, fun b => ?_⟩
    rw [hit.rescaleCheck_update_iff hot]
    omega
  case fromOpen =>
    obtain ⟨t, hall, hot, hit, ht⟩ := execAll_syms_total ho hinv hlim
    refine ⟨t, hall, ht, fun b => ?_⟩
    rw [hit.rescaleCheck_update_iff hot]
    omega
  case afterRescale =>
    obtain ⟨h0, hs, htot⟩ := (hinv.tableInvariant ho).update b
    rw [show (entry s.tbl totalIndex).toNat = 8388608 from (hinv.rescaleCheck_update_iff ho b).1 hcheck] at htot
    obtain ⟨-, -, hlow, hhigh⟩ := tableRescale_total_bounds h0 hs htot
    rw [hinv.exec_sym ho b] at hexec; cases hexec
    rw [memRead, codeWithUnit_tbl, tableAfterSym_eq_ite_rescaleCheck, if_pos hcheck,
      show (rescale (update b s)).tbl = tableRescale (tableUpdate b s.tbl) from rfl]
    exact ⟨hlow, hhigh, by omega⟩

end Sys2Proof.Machine
end

section
/-! PROOFS. The interval arithmetic: the unit DIVIDE answers, what NARROW makes of it, and how both relate to RANGE in an open
call (R65 to R69, R71, R72); SYM in the function form of R88, in which the call with the lost carry is run. -/

namespace Sys2Proof.Machine

/-! ### IINIT, and DIVIDE with any total -/

/-- Settles O33: IINIT is the two writes. -/
theorem iinitSetsTheInterval : Obligations.IinitSetsTheInterval := fun _ => rfl

theorem divide_of_ne {total : Word} (h : total ≠ 0) (s : State) : divide total s = some (s.range / total) :=
  div32_of_ne h

theorem divide_zero (s : State) : divide 0 s = none :=
  div32_zero s.range

/-- The floor of RANGE over the total, times the total, is at most RANGE, for every total. -/
theorem unit_mul_le_range (total : Word) (s : State) : (s.range / total).toNat * total.toNat ≤ s.range.toNat := by
  rw [BitVec.toNat_udiv]; exact Nat.div_mul_le_self _ _

/-- The unit is 0 exactly when RANGE is below the total (R66, R70). -/
theorem one_le_unit_iff {total : Word} (h : 0 < total.toNat) (s : State) :
    1 ≤ (s.range / total).toNat ↔ total.toNat ≤ s.range.toNat := by
  rw [BitVec.toNat_udiv, Nat.le_div_iff_mul_le h, Nat.one_mul]

/-! ### DIVIDE in an open call -/

/-- UNIT, the temporary DIVIDE hands to NARROW, for the total that stands in the table (R20, R66). -/
abbrev unitOf (s : State) : Word :=
  s.range / memRead totalIndex s

section
variable {s : State} (ho : callOpen s) (hinv : CallInvariant s)
include ho hinv

theorem CallInvariant.le_total : 256 ≤ (memRead totalIndex s).toNat := by
  obtain ⟨-, -, hmin, -⟩ := hinv.tableInvariant ho
  exact hmin

theorem CallInvariant.total_ne_zero : memRead totalIndex s ≠ 0 := fun h => by
  have hmin := hinv.le_total ho
  rw [h] at hmin
  exact absurd hmin (by decide)

/-- In an open call DIVIDE has a result (R72). -/
theorem CallInvariant.divide_total : divide (memRead totalIndex s) s = some (unitOf s) :=
  divide_of_ne (hinv.total_ne_zero ho) s

/-- The quotient is at most that by the smallest total, 256 (R66). -/
theorem CallInvariant.unit_le : (unitOf s).toNat ≤ 0x00FFFFFF := by
  have hrange := s.range.isLt
  rw [BitVec.toNat_udiv]
  exact (Nat.div_le_div_left (hinv.le_total ho) (by decide)).trans (by omega)

/-- No entry exceeds the total, so neither does its product with the unit. -/
theorem CallInvariant.unit_mul_entry_le (i : Fin 257) :
    (unitOf s).toNat * (memRead i s).toNat ≤ (unitOf s).toNat * (memRead totalIndex s).toNat := by
  obtain ⟨-, hs, -⟩ := hinv.tableInvariant ho
  exact Nat.mul_le_mul_left _ (hs.le_total i)

end

/-- Settles O34: the floor of the naturals; the total of an open call is at least 256, which bounds the unit. -/
theorem divideFloors : Obligations.DivideFloors := by
  refine ⟨fun total s h => ⟨_, divide_of_ne h s, BitVec.toNat_udiv⟩, fun s ho hinv => ?_, fun s h => ?_⟩
  · have hmin := hinv.le_total ho
    exact ⟨_, hinv.divide_total ho, hinv.unit_le ho, unit_mul_le_range _ s, one_le_unit_iff (by omega) s⟩
  · rw [divide_of_ne (by decide), h]; decide

/-! ### No step stops -/

/-- A command on a state that meets the invariant answers a next state: START and FINISH always do, and the division of a SYM
in an open call has a result. -/
theorem CallInvariant.exists_exec_next {s : State} (h : CallInvariant s) (i : Instr) : ∃ t, exec i s = .next t := by
  by_cases hf : s.phase = .fault
  · exact ⟨s, exec_of_fault i hf⟩
  by_cases ho : callOpen s
  · cases i with
    | start => exact ⟨_, (CommandEffect.misplaced (.inl ⟨rfl, ho⟩)).exec_eq⟩
    | sym b => exact ⟨_, h.exec_sym ho b⟩
    | finish => exact ⟨_, execFinish_of_callOpen ho⟩
  · exact ⟨_, exec_of_idle i (idle_of_not_callOpen hf ho)⟩

theorem CallInvariant.exists_runWord_next {s : State} (h : CallInvariant s) (w : CmdWord) : ∃ t, runWord w s = .next t := by
  by_cases hf : s.phase = .fault
  · exact ⟨s, runWord_of_fault w hf⟩
  cases hd : decode w with
  | error e => exact ⟨_, runWord_of_error hf hd⟩
  | ok i => rw [runWord_of_ok hf hd]; exact h.exists_exec_next i

theorem CallInvariant.exists_step_next {s : State} (h : CallInvariant s) : ∃ t, step s = .next t := by
  obtain ⟨-, hq⟩ | ⟨rest, -, hq⟩ | ⟨w, rest, -, hq⟩ := step_cases s
  · exact ⟨s, hq⟩
  · exact ⟨_, hq⟩
  · have hrest : CallInvariant (setCmd rest s) := h
    rw [hq]; exact hrest.exists_runWord_next w

/-- SYM of an open call with the total 0 stops the machine (R72). -/
theorem exec_sym_of_total_zero (b : Byte) {s : State} (ho : callOpen s) (h0 : memRead totalIndex s = 0) :
    exec (.sym b) s = .fault .divideByZeroTotal := by
  rw [exec_sym_eq, guarded_of_accepts (ne_fault_of_callOpen ho) ((acceptsSym_iff _).2 ho)]
  obtain ⟨-, hc⟩ | ⟨hz, -⟩ := codeSymbol_cases b s
  · exact hc
  · exact absurd h0 hz

/-- Settles O35: every reachable state meets the call invariant, and with it no event stops the machine. -/
theorem divisionByZeroIsUnreachable : Obligations.DivisionByZeroIsUnreachable :=
  ⟨fun _ hr ho => ⟨hr.callInvariant.le_total ho, _, hr.callInvariant.divide_total ho⟩,
    fun _ hr => hr.callInvariant.exists_step_next,
    fun b _ hinv => hinv.exists_exec_next (.sym b),
    divide_zero,
    fun b _ ho h0 => .inl ⟨_, exec_sym_of_total_zero b ho h0⟩⟩

/-! ### NARROW -/

theorem mul32_toNat (a b : Word) : (mul32 a b).toNat = a.toNat * b.toNat % 2 ^ 32 :=
  BitVec.toNat_mul a b

/-- A product that a word bounds is exact. -/
theorem mul32_toNat_of_le {a b r : Word} (h : a.toNat * b.toNat ≤ r.toNat) : (mul32 a b).toNat = a.toNat * b.toNat := by
  rw [mul32_toNat, Nat.mod_eq_of_lt (Nat.lt_of_le_of_lt h r.isLt)]

@[simp] theorem narrow_low (unit lowSym highSym : Word) (s : State) :
    (narrow unit lowSym highSym s).low = s.low + unit * lowSym := rfl
@[simp] theorem narrow_range (unit lowSym highSym : Word) (s : State) :
    (narrow unit lowSym highSym s).range = unit * (highSym - lowSym) := rfl

section
variable {s : State} (ho : callOpen s) (hinv : CallInvariant s)
include ho hinv

/-- The widths below, of and up to a symbol add up: a frequency of a strict table is an exact difference (R62). -/
theorem CallInvariant.unit_mul_low_add_freq (unit : Word) (b : Byte) :
    unit.toNat * (memRead (lowIndex b) s).toNat + unit.toNat * (freq s.tbl b).toNat =
      unit.toNat * (memRead (highIndex b) s).toNat := by
  obtain ⟨-, hs, -⟩ := hinv.tableInvariant ho
  have hgap : (memRead (lowIndex b) s).toNat + 1 ≤ (memRead (highIndex b) s).toNat := hs b
  have hfreq : (freq s.tbl b).toNat = (memRead (highIndex b) s).toNat - (memRead (lowIndex b) s).toNat := hs.freq_toNat b
  rw [← Nat.mul_add, hfreq, Nat.add_sub_cancel' (by omega)]

theorem CallInvariant.unit_mul_entry_le_range (i : Fin 257) : (unitOf s).toNat * (memRead i s).toNat ≤ s.range.toNat :=
  (hinv.unit_mul_entry_le ho i).trans (unit_mul_le_range _ s)

theorem CallInvariant.unit_mul_freq_le_range (b : Byte) : (unitOf s).toNat * (freq s.tbl b).toNat ≤ s.range.toNat := by
  have hsum := hinv.unit_mul_low_add_freq ho (unitOf s) b
  have hhigh := hinv.unit_mul_entry_le_range ho (highIndex b)
  omega

/-- The new RANGE is the exact product of the unit and the symbol's frequency (R67, R68). -/
theorem CallInvariant.unit_mul_freq_toNat (b : Byte) :
    (mul32 (unitOf s) (freq s.tbl b)).toNat = (unitOf s).toNat * (freq s.tbl b).toNat :=
  mul32_toNat_of_le (hinv.unit_mul_freq_le_range ho b)

/-- The new RANGE is at least the unit, because every frequency is at least 1. -/
theorem CallInvariant.unit_le_unit_mul_freq (b : Byte) : (unitOf s).toNat ≤ (mul32 (unitOf s) (freq s.tbl b)).toNat := by
  obtain ⟨-, hs, -⟩ := hinv.tableInvariant ho
  rw [hinv.unit_mul_freq_toNat ho b]
  exact Nat.le_mul_of_pos_right _ (hs.one_le_freq b)

end

/-- Settles O37: the unit times an entry, and so times a gap between two entries, is at most RANGE, which a word holds. -/
theorem productsNeverOverflow : Obligations.ProductsNeverOverflow := by
  refine ⟨mul32_toNat, fun b s ho hinv => ?_⟩
  have hlow := hinv.unit_mul_entry_le_range ho (lowIndex b)
  have hfreq := hinv.unit_mul_freq_le_range ho b
  have hexact := hinv.unit_mul_freq_toNat ho b
  obtain ⟨-, hs, -⟩ := hinv.tableInvariant ho
  rw [hs.freq_toNat b] at hfreq hexact
  exact ⟨mul32_toNat_of_le hlow, hexact, hlow, hfreq⟩

/-- Settles O36: the unit times the bounds, the frequency and the total, compared; the frequency is at least 1. -/
theorem narrowReplacesTheInterval : Obligations.NarrowReplacesTheInterval := by
  refine ⟨fun _ _ _ _ => rfl, fun b s ho hinv => ?_⟩
  intro unit t
  obtain ⟨h0, -⟩ := hinv.tableInvariant ho
  have hlow : t.low = s.low + unit * memRead (lowIndex b) s := narrow_low _ _ _ s
  have hrange : t.range = mul32 unit (freq s.tbl b) := narrow_range _ _ _ s
  have hexact := hinv.unit_mul_freq_toNat ho b
  have hle := hinv.unit_mul_freq_le_range ho b
  have hunit : unit ≤ t.range := BitVec.le_def.2 (hinv.unit_le_unit_mul_freq ho b)
  refine ⟨hinv.unit_mul_low_add_freq ho unit b, hinv.unit_mul_entry_le ho (highIndex b), unit_mul_le_range _ s, hexact,
    BitVec.le_def.2 (hexact.trans_le hle), hunit, ⟨fun h => ?rangeZero, fun h => ?unitZero⟩, fun h => ?lowOfSymbolZero,
    fun h => ?lowOfUnitZero⟩
  case rangeZero => rw [h] at hunit; exact BitVec.le_zero_iff.1 hunit
  case unitZero => rw [hrange, h]; exact BitVec.zero_mul
  case lowOfSymbolZero =>
    have hzero : memRead (lowIndex b) s = 0 := by rw [h]; exact h0
    rw [hlow, hzero, mul_zero, add_zero]
  case lowOfUnitZero => rw [hlow, h, zero_mul, add_zero]

/-! ### The unit in short calls -/

/-- Settles O40: after at most 65281 symbols the total is at most 65537, the least RANGE of an open call. -/
theorem unitIsNonZeroInShortCalls : Obligations.UnitIsNonZeroInShortCalls := by
  intro s x hp hlen
  have hstart := startCall_total s
  obtain ⟨t, hall, ho, hinv, ht⟩ :=
    execAll_syms_total (x := x) (.inl rfl) (startCall_callInvariant hp) (by omega)
  have hwide : 65537 ≤ t.range.toNat := ((callInvariant_iff t).1 hinv ho).2
  have hunit := (one_le_unit_iff (by omega) t).2 (show (memRead totalIndex t).toNat ≤ t.range.toNat by omega)
  exact ⟨t, (execAll_cons_of_next (CommandEffect.started hp).exec_eq).trans hall, fun b =>
    ⟨_, hinv.divide_total ho, hunit, hunit.trans (hinv.unit_le_unit_mul_freq ho b)⟩⟩

/-! ### SYM in the function form -/

/-- The variables of the function form of COMPRESS (R88) as they stand in a state. -/
def coderOf (s : State) : Coder where
  tbl := s.tbl
  low := s.low
  range := s.range
  out := s.out

theorem coderOf_startCall (s : State) : coderOf (startCall s) = coderStart := rfl

/-- RENORM does to the variables what its loop in R88 does. -/
theorem coderOf_renormWithin (n : Nat) (s : State) : coderOf (renormWithin n s) = coderRenorm n (coderOf s) := by
  induction n generalizing s with
  | zero => rfl
  | succ n ih =>
    by_cases hb : s.range ≤ Config.bottom
    · rw [renormWithin_of_narrow n hb, ih]
      exact (if_pos hb).symm
    · rw [renormWithin_of_wide _ hb]
      exact (if_neg hb).symm

/-- SYM does to the variables what one pass of R88 over its symbol does. -/
theorem coderSymbol_coderOf (b : Byte) {s : State} (hz : memRead totalIndex s ≠ 0) :
    coderSymbol b (coderOf s) = some (coderOf (codeWithUnit b (s.range / memRead totalIndex s) s)) := by
  have hdiv : div32 (coderOf s).range (entry (coderOf s).tbl totalIndex) = some (s.range / memRead totalIndex s) :=
    div32_of_ne hz
  rw [coderSymbol, hdiv, codeWithUnit_eq]
  exact congrArg (fun c : Coder => some { c with tbl := tableAfterSym b s.tbl })
    (coderOf_renormWithin 3 (narrow _ (memRead (lowIndex b) s) (memRead (highIndex b) s) s)).symm

/-- The same in an open call that meets the invariant, along `exec`. -/
theorem exec_sym_coderSymbol (b : Byte) {s : State} (ho : callOpen s) (hinv : CallInvariant s) :
    ∃ t, exec (.sym b) s = .next t ∧ callOpen t ∧ CallInvariant t ∧ coderSymbol b (coderOf s) = some (coderOf t) := by
  have hexec := hinv.exec_sym ho b
  exact ⟨_, hexec, .inr (codeWithUnit_phase _ _ _), (commandEffect_of_exec hexec).keeps_callInvariant hinv,
    coderSymbol_coderOf b (hinv.total_ne_zero ho)⟩

/-- SYMs of an open call that meets the invariant do to the variables what the loop of R88 does. -/
theorem execAll_syms_coderAll (x : List Byte) {s : State} (ho : callOpen s) (hinv : CallInvariant s) :
    ∃ t, execAll (x.map Instr.sym) s = .next t ∧ callOpen t ∧ CallInvariant t ∧
      coderAll x (coderOf s) = some (coderOf t) := by
  induction x generalizing s with
  | nil => exact ⟨s, rfl, ho, hinv, rfl⟩
  | cons b x ih =>
    obtain ⟨u, hexec, hou, hiu, hsym⟩ := exec_sym_coderSymbol b ho hinv
    obtain ⟨t, hall, hot, hit, hcoder⟩ := ih hou hiu
    refine ⟨t, (execAll_cons_of_next hexec).trans hall, hot, hit, ?_⟩
    rw [coderAll, hsym]
    exact hcoder

/-! ### The lost carry -/

/-- The variables after the symbols 41 00: the byte 40 is out, and LOW is close to `2^32`. -/
def coderBeforeCarry : Coder where
  tbl := tableUpdate 0x00 (tableUpdate 0x41 tableInit)
  low := 0xFFFFBF00
  range := 0x00FF00FF
  out := [0x40]

theorem coderAll_beforeCarry : coderAll [0x41, 0x00] coderStart = some coderBeforeCarry := rfl

/-- A third symbol 41 adds `64774 * 66` to LOW; the sum wraps and the byte 40 stays as it is. -/
theorem coderSymbol_carry : coderSymbol 0x41 coderBeforeCarry =
    some { tbl := tableUpdate 0x41 coderBeforeCarry.tbl, low := 0x0040FA8C, range := 64774 * 2, out := [0x40] } := rfl

/-- Settles O38: NARROW writes LOW and RANGE alone; the call 41 00 41 is run in the function form. -/
theorem carryOutOfLowIsLost : Obligations.CarryOutOfLowIsLost := by
  refine ⟨fun _ _ _ _ => ⟨BitVec.toNat_add _ _, rfl, rfl, rfl, narrow_range _ _ _ _⟩, fun s hp => ?_⟩
  obtain ⟨t, hall, ho, hinv, hcoder⟩ := execAll_syms_coderAll [0x41, 0x00] (.inl rfl) (startCall_callInvariant hp)
  obtain ⟨v, hexec, -, -, hsym⟩ := exec_sym_coderSymbol 0x41 ho hinv
  rw [coderOf_startCall] at hcoder
  have ht : coderOf t = coderBeforeCarry := Option.some.inj (hcoder.symm.trans coderAll_beforeCarry)
  rw [ht] at hsym
  have hv := Option.some.inj (hsym.symm.trans coderSymbol_carry)
  have htbl : t.tbl = coderBeforeCarry.tbl := congrArg Coder.tbl ht
  have hlow : t.low = 0xFFFFBF00 := congrArg Coder.low ht
  have hrange : t.range = 0x00FF00FF := congrArg Coder.range ht
  refine ⟨t, v, (execAll_cons_of_next (CommandEffect.started hp).exec_eq).trans hall, hexec, hlow,
    congrArg Coder.out ht, ?unit, ?lowSym, ?sum, congrArg Coder.low hv, congrArg Coder.out hv⟩
  case unit => rw [hinv.divide_total ho, unitOf, hrange, memRead, htbl]; rfl
  case lowSym => rw [memRead, htbl]; rfl
  case sum => rw [hlow]; rfl

end Sys2Proof.Machine
end

section
/-! PROOFS. The normalizer: one RENORM_STEP as numbers, RENORM as iterated RENORM_STEP, and how the range at entry decides the
number of iterations (R73 to R77). -/

namespace Sys2Proof.Machine

/-! ### One RENORM_STEP -/

theorem range_le_bottom_iff (s : State) : s.range ≤ Config.bottom ↔ s.range.toNat ≤ 65536 :=
  BitVec.le_def

theorem rangeWide_iff (s : State) : rangeWide s ↔ ¬ s.range ≤ Config.bottom := by
  rw [range_le_bottom_iff, Nat.not_le]
  rfl

theorem shl8_eq_append (a : Word) : shl8 a = a.extractLsb' 0 24 ++ (0 : Byte) :=
  BitVec.shiftLeft_eq_concat_of_lt (by decide)

theorem shl8_toNat (a : Word) : (shl8 a).toNat = a.toNat * 256 % 2 ^ 32 := by
  rw [shl8, BitVec.toNat_shiftLeft, Nat.shiftLeft_eq]

/-- RENORM_STEP on RANGE with no bound on it (R74): the shift may truncate. -/
theorem renormStep_range_toNat_mod (s : State) :
    (renormStep s).range.toNat = (s.range.toNat * 256 + 255) % 2 ^ 32 := by
  have hor : (or32 (shl8 s.range) 0xFF).toNat = (s.range.extractLsb' 0 24).toNat <<< 8 + 255 := by
    rw [or32, BitVec.toNat_or, shl8_eq_append, BitVec.toNat_append, Nat.shiftLeft_add_eq_or_of_lt (by decide)]
    exact congrArg (· ||| 255) (Nat.or_zero _)
  rw [renormStep_range, hor, BitVec.extractLsb'_toNat, Nat.shiftRight_zero, Nat.shiftLeft_eq]
  omega

/-- Settles O42: the effect is the definition, and no bit is lost because `65536 * 256 + 255` is below `2^32`. -/
theorem renormStepShiftsOneByteOut : Obligations.RenormStepShiftsOneByteOut := fun s => by
  refine ⟨rfl, shl8_eq_append _, shl8_toNat _, renormStep_range_toNat_mod s, fun h => ?_⟩
  have hle := (range_le_bottom_iff s).1 h
  have hstep := renormStep_range_toNat h
  have hshl := shl8_toNat s.range
  exact ⟨by omega, by omega, by omega⟩

/-! ### The loop as iterated RENORM_STEP -/

theorem iterate_renormStep_low (k : Nat) (s : State) : (renormStep^[k] s).low = s.low <<< (8 * k) := by
  induction k with
  | zero => simp
  | succ k ih =>
    rw [Function.iterate_succ_apply', renormStep_low, ih, shl8, Nat.mul_succ, BitVec.shiftLeft_add]

theorem getElem_bytesMsbFirst (a : Word) {k : Nat} (h : k < (bytesMsbFirst a).length) :
    (bytesMsbFirst a)[k] = a.extractLsb' (24 - 8 * k) 8 :=
  match k, h with
  | 0, _ | 1, _ | 2, _ | 3, _ => rfl

theorem msb8_shiftLeft (a : Word) {n : Nat} (h : n ≤ 24) : msb8 (a <<< n) = a.extractLsb' (24 - n) 8 := by
  refine BitVec.eq_of_getLsbD_eq fun i hi => ?_
  have hge : ¬ 24 + i < n := by omega
  have hlt : 24 + i < 32 := by omega
  rw [msb8, BitVec.getLsbD_extractLsb', BitVec.getLsbD_shiftLeft, BitVec.getLsbD_extractLsb', Nat.sub_add_comm h]
  simp [hge, hlt]

/-- The first iterations emit the bytes of LOW, most significant first. -/
theorem iterate_renormStep_out (k : Nat) (s : State) (hk : k ≤ (bytesMsbFirst s.low).length) :
    (renormStep^[k] s).out = s.out ++ (bytesMsbFirst s.low).take k := by
  induction k with
  | zero => simp
  | succ k ih =>
    rw [Function.iterate_succ_apply', renormStep_out, ih (Nat.le_of_succ_le hk), iterate_renormStep_low,
      msb8_shiftLeft s.low (by have : k + 1 ≤ 4 := hk; omega), ← getElem_bytesMsbFirst s.low hk, List.append_assoc,
      List.take_append_getElem]

theorem iterate_renormStep_out_length (k : Nat) (s : State) :
    (renormStep^[k] s).out.length = s.out.length + k := by
  induction k with
  | zero => rfl
  | succ k ih =>
    rw [Function.iterate_succ_apply', renormStep_out, List.length_append, ih]
    rfl

/-- The general row of R75 for RANGE, modulo `2^32`. -/
theorem iterate_renormStep_range_mod (k : Nat) (s : State) :
    (renormStep^[k] s).range.toNat = (s.range.toNat * 256 ^ k + (256 ^ k - 1)) % 2 ^ 32 := by
  induction k with
  | zero => simp [Nat.mod_eq_of_lt s.range.isLt]
  | succ k ih =>
    have hpos : 1 ≤ 256 ^ k := Nat.one_le_pow _ _ (by decide)
    rw [Function.iterate_succ_apply', renormStep_range_toNat_mod, ih, Nat.pow_succ 256, ← Nat.mul_assoc]
    omega

/-- The first `k` tests of the loop succeed, each made before an iteration (R73). -/
def EntersRounds (k : Nat) (s : State) : Prop :=
  ∀ j, j < k → (renormStep^[j] s).range.toNat ≤ 65536

/-- While the tests succeed nothing truncates: each iteration multiplies RANGE + 1 by 256. -/
theorem EntersRounds.range_add_one {k : Nat} {s : State} (h : EntersRounds k s) :
    (renormStep^[k] s).range.toNat + 1 = (s.range.toNat + 1) * 256 ^ k := by
  induction k with
  | zero => simp
  | succ k ih =>
    rw [Function.iterate_succ_apply', renormStep_range_toNat ((range_le_bottom_iff _).2 (h k k.lt_succ_self)),
      ih fun j hj => h j (Nat.lt_succ_of_lt hj), Nat.pow_succ, Nat.mul_assoc]

theorem renormWithin_eq_iterate (n : Nat) (s : State) :
    ∃ k, k ≤ n ∧ renormWithin n s = renormStep^[k] s ∧ EntersRounds k s := by
  induction n generalizing s with
  | zero => exact ⟨0, le_rfl, rfl, fun _ hj => absurd hj (Nat.not_lt_zero _)⟩
  | succ n ih =>
    by_cases hb : s.range ≤ Config.bottom
    · obtain ⟨k, hk, heq, henter⟩ := ih (renormStep s)
      refine ⟨k + 1, Nat.succ_le_succ hk, by rw [renormWithin_of_narrow n hb, heq]; rfl, fun j hj => ?_⟩
      cases j with
      | zero => exact (range_le_bottom_iff s).1 hb
      | succ j => exact henter j (Nat.lt_of_succ_lt_succ hj)
    · exact ⟨0, Nat.zero_le _, renormWithin_of_wide _ hb, fun _ hj => absurd hj (Nat.not_lt_zero _)⟩

theorem renorm_eq_iterate (s : State) : ∃ k, k ≤ 3 ∧ renorm s = renormStep^[k] s ∧ EntersRounds k s :=
  renormWithin_eq_iterate 3 s

theorem renorm_of_wide {s : State} (h : rangeWide s) : renorm s = s :=
  renormWithin_of_wide 3 ((rangeWide_iff s).1 h)

/-- A round more changes nothing when the range is wide after `n` rounds. -/
theorem renormWithin_succ_of_rangeWide {n : Nat} {s : State} (h : rangeWide (renormWithin n s)) :
    renormWithin (n + 1) s = renormWithin n s := by
  induction n generalizing s with
  | zero => exact renormWithin_of_wide 1 ((rangeWide_iff s).1 h)
  | succ n ih =>
    by_cases hb : s.range ≤ Config.bottom
    · rw [renormWithin_of_narrow n hb] at h
      rw [renormWithin_of_narrow _ hb, renormWithin_of_narrow _ hb, ih h]
    · rw [renormWithin_of_wide _ hb, renormWithin_of_wide _ hb]

/-- The unrolling law of the while loop: the step leaves RANGE at 255 or more, so two rounds are enough after it. -/
theorem renorm_of_narrow {s : State} (h : s.range ≤ Config.bottom) : renorm s = renorm (renormStep s) := by
  have hstep := renormStep_range_toNat h
  have htwo : rangeWide (renormWithin 2 (renormStep s)) := renormWithin_wide 2 _ (by omega)
  exact (renormWithin_of_narrow 2 h).trans (renormWithin_succ_of_rangeWide htwo).symm

/-- RENORM writes LOW, RANGE and OUT alone. -/
theorem renorm_frame (s : State) :
    renorm s = { s with low := (renorm s).low, range := (renorm s).range, out := (renorm s).out } :=
  renormWithin_induct (P := fun u => u = { s with low := u.low, range := u.range, out := u.out })
    (fun u h => by rw [h]; rfl) 3 s rfl

/-- Settles O41: the loop's laws, one by one; RANGE is wide after three rounds, so the model's bound on them ends no loop early. -/
theorem renormIsTheWhileLoop : Obligations.RenormIsTheWhileLoop := fun s =>
  ⟨renorm_of_wide, fun h => renorm_of_narrow ((range_le_bottom_iff s).2 h), renorm_wide s,
    renorm_eq_iterate s, renorm_frame s⟩

/-! ### The number of iterations -/

/-- The range at entry decides the number of iterations: the first that carries RANGE + 1 past 65537 is the last. -/
theorem EntersRounds.eq_of_range {m k : Nat} {s : State} (h : EntersRounds m s) (hwide : rangeWide (renormStep^[m] s))
    (hlo : (s.range.toNat + 1) * 256 ^ k ≤ 65537) (hhi : 65537 < (s.range.toNat + 1) * 256 ^ (k + 1)) : m = k + 1 := by
  have hexit : 65537 < (s.range.toNat + 1) * 256 ^ m := h.range_add_one ▸ Nat.lt_succ_of_le hwide
  obtain hlt | heq | hgt := Nat.lt_trichotomy m (k + 1)
  · have hpow : 256 ^ m ≤ 256 ^ k := Nat.pow_le_pow_right (by decide) (Nat.le_of_lt_succ hlt)
    have hmono := Nat.mul_le_mul_left (s.range.toNat + 1) hpow
    omega
  · exact heq
  · have henter : EntersRounds (k + 1) s := fun j hj => h j (hj.trans hgt)
    have hnarrow := h (k + 1) hgt
    have hrange := henter.range_add_one
    omega

/-- One row of the table of R75: OUT, LOW and RANGE at exit for the ranges at entry that give `k + 1` iterations. -/
theorem renorm_of_range (k : Nat) {s : State} (hlo : (s.range.toNat + 1) * 256 ^ k ≤ 65537)
    (hhi : 65537 < (s.range.toNat + 1) * 256 ^ (k + 1)) :
    (renorm s).out = s.out ++ (bytesMsbFirst s.low).take (k + 1) ∧ (renorm s).low = s.low <<< (8 * (k + 1)) ∧
    (renorm s).range.toNat + 1 = (s.range.toNat + 1) * 256 ^ (k + 1) := by
  obtain ⟨m, hm, heq, henter⟩ := renorm_eq_iterate s
  obtain rfl := henter.eq_of_range (heq ▸ renorm_wide s) hlo hhi
  rw [heq]
  exact ⟨iterate_renormStep_out _ s (show _ ≤ 4 by omega), iterate_renormStep_low _ s, henter.range_add_one⟩

/-- Settles O43: each range at entry is one row, since RANGE + 1 is multiplied by 256 until it is past 65537. -/
theorem renormIterationTable : Obligations.RenormIterationTable := fun s => by
  refine ⟨renorm_of_wide, fun hlo hhi => ?one, fun hlo hhi => ?two, fun hzero => ?three,
    fun j => ⟨?low, iterate_renormStep_range_mod j s⟩⟩
  case one =>
    obtain ⟨hout, hlow, hrange⟩ := renorm_of_range (s := s) 0 (by omega) (by omega)
    exact ⟨hout, hlow.trans (BitVec.shiftLeft_eq_concat_of_lt (by decide)), by omega, by omega, by omega⟩
  case two =>
    obtain ⟨hout, hlow, hrange⟩ := renorm_of_range (s := s) 1 (by omega) (by omega)
    exact ⟨hout, hlow.trans (BitVec.shiftLeft_eq_concat_of_lt (by decide)), by omega, by omega, by omega⟩
  case three =>
    obtain ⟨hout, hlow, hrange⟩ := renorm_of_range (s := s) 2 (by omega) (by omega)
    exact ⟨hout, hlow.trans (BitVec.shiftLeft_eq_concat_of_lt (by decide)), by omega⟩
  case low => rw [iterate_renormStep_low, BitVec.toNat_shiftLeft, Nat.shiftLeft_eq, Nat.pow_mul]

/-! ### After at least one iteration -/

/-- The last iteration is entered at or below 65536, so it leaves RANGE at most 0x010000FF. -/
theorem EntersRounds.range_le {k : Nat} {s : State} (h : EntersRounds (k + 1) s) :
    (renormStep^[k + 1] s).range.toNat ≤ 0x010000FF := by
  have hlast := h k k.lt_succ_self
  have hstep := renormStep_range_toNat ((range_le_bottom_iff _).2 hlast)
  rw [Function.iterate_succ_apply']
  omega

/-- Settles O44: the bytes appended count the iterations, so LOW has been shifted by as many bytes. -/
theorem renormPostcondition : Obligations.RenormPostcondition := fun s => by
  refine ⟨renorm_wide s, fun k hk hlen => ?_⟩
  obtain ⟨m, hm, heq, henter⟩ := renorm_eq_iterate s
  rw [heq] at hlen ⊢
  obtain rfl : m = k := Nat.add_left_cancel ((iterate_renormStep_out_length m s).symm.trans hlen)
  obtain ⟨j, rfl⟩ := Nat.exists_eq_add_of_le' hk
  refine ⟨henter.range_le, ?_⟩
  rw [iterate_renormStep_low, BitVec.toNat_shiftLeft, Nat.shiftLeft_eq,
    Nat.mod_mod_of_dvd _ (Nat.pow_dvd_pow 2 (by omega)), Nat.mul_mod_left]

end Sys2Proof.Machine
end

section
/-! PROOFS. Runs of a command stream: the words of the stream run its commands one after another, none of which
stops a state that meets the call invariant (R38, R43, R84); the call's result as a function of its symbols (R83). -/

namespace Sys2Proof.Machine

/-! ### A command through its word -/

theorem decode_encode (i : Instr) : decode (encode i) = .ok i := by
  cases i with
  | start => exact (decode_eq_start_iff _).2 rfl
  | finish => exact (decode_eq_finish_iff _).2 rfl
  | sym b =>
    have hopc : opcOf (encode (.sym b)) = 0x02 := opcOf_append 0x02 b
    have hstart : encode (.sym b) ≠ 0x0100 := fun h => absurd (hopc.symm.trans (congrArg opcOf h)) (by decide)
    rw [decode, if_neg hstart, if_pos hopc]
    exact congrArg (fun c => Except.ok (Instr.sym c)) BitVec.extractLsb'_append_eq_right

/-- In FAULT too: there the word is ignored and so is the command (R106). -/
theorem runWord_encode (i : Instr) (s : State) : runWord (encode i) s = exec i s := by
  by_cases hf : s.phase = .fault
  · rw [runWord_of_fault _ hf, exec_of_fault i hf]
  · exact runWord_of_ok hf (decode_encode i)

/-! ### Commands one after another -/

theorem execAll_cons_eq_next {i : Instr} {is : List Instr} {s t : State} :
    execAll (i :: is) s = .next t ↔ ∃ u, exec i s = .next u ∧ execAll is u = .next t := by
  rw [execAll]
  cases exec i s <;> simp

theorem execAll_append_of_next {is js : List Instr} {s t : State} (h : execAll is s = .next t) :
    execAll (is ++ js) s = execAll js t := by
  induction is generalizing s with
  | nil => cases h; rfl
  | cons i is ih =>
    obtain ⟨u, hexec, hall⟩ := execAll_cons_eq_next.1 h
    exact (execAll_cons_of_next hexec).trans (ih hall)

/-- No list of commands stops a state that meets the invariant. -/
theorem CallInvariant.exists_execAll_next {s : State} (h : CallInvariant s) (is : List Instr) :
    ∃ t, execAll is s = .next t := by
  induction is generalizing s with
  | nil => exact ⟨s, rfl⟩
  | cons i is ih =>
    obtain ⟨u, hexec⟩ := h.exists_exec_next i
    obtain ⟨t, hall⟩ := ih ((commandEffect_of_exec hexec).keeps_callInvariant h)
    exact ⟨t, (execAll_cons_of_next hexec).trans hall⟩

/-- The steps that consume the words of some commands run those commands (R43, R84). -/
theorem runSteps_streamOf {is : List Instr} {rest : List HostEvent} {s t : State} (hcmd : s.cmd = streamOf is ++ rest)
    (h : execAll is (setCmd rest s) = .next t) : runSteps is.length s = .next t := by
  induction is generalizing s with
  | nil =>
    cases h
    exact congrArg (fun es => Host.Outcome.next (setCmd es s)) hcmd
  | cons i is ih =>
    obtain ⟨u, hexec, hall⟩ := execAll_cons_eq_next.1 h
    have hevent : runEvent (.word (encode i)) (setCmd rest s) = .next u := (runWord_encode i _).trans hexec
    obtain ⟨hu, hany⟩ := runEvent_setCmd hevent
    have hstep : step s = .next (setCmd (streamOf is ++ rest) u) := (step_of_cons hcmd).trans (hany _)
    have hback : setCmd rest u = u := congrArg (fun es => setCmd es u) hu.symm
    rw [List.length_cons, runSteps, hstep]
    exact ih rfl (hback.symm ▸ hall)

/-! ### The counter of resets -/

theorem Appends.of_setResets {act : State → Host.Outcome State Fault Refusal} {s t : State} {bs : List Byte}
    (ha : Appends act s t bs) (h : act s = .next t) (n : Nat) : act (setResets n s) = .next (setResets n t) := by
  obtain ⟨hout, hcmd, -⟩ := ha.frame h
  have hset : act (setResets n s) = .next (withUnread (s.out ++ bs) s.cmd n t) := ha s.out s.cmd n
  rw [hset, ← hout, ← hcmd]; rfl

/-- No command reads the counter of resets (log entry 4). -/
theorem exec_setResets {i : Instr} {s t : State} (h : exec i s = .next t) (n : Nat) :
    exec i (setResets n s) = .next (setResets n t) := by
  by_cases hstart : i = .start ∧ s.phase = .idle
  · obtain ⟨rfl, hp⟩ := hstart
    rw [exec_of_idle .start hp] at h; cases h
    exact exec_of_idle .start (s := setResets n s) hp
  · obtain ⟨bs, -, hbs⟩ := exec_appends h hstart
    exact hbs.of_setResets h n

theorem execAll_setResets {is : List Instr} {s t : State} (h : execAll is s = .next t) (n : Nat) :
    execAll is (setResets n s) = .next (setResets n t) := by
  induction is generalizing s with
  | nil => cases h; rfl
  | cons i is ih =>
    obtain ⟨u, hexec, hall⟩ := execAll_cons_eq_next.1 h
    exact (execAll_cons_of_next (exec_setResets hexec n)).trans (ih hall)

/-! ### Whole calls -/

theorem execAll_start_cons {s : State} (h : s.phase = .idle) (is : List Instr) :
    execAll (.start :: is) s = execAll is (startCall s) :=
  execAll_cons_of_next (CommandEffect.started h).exec_eq

/-- START forgets what stood in the block: with the same stream behind it, two states differ after it in the counter alone. -/
theorem startCall_setCmd_eq (s s' : State) (es : List HostEvent) :
    startCall (setCmd es s') = setResets s'.resets (startCall (setCmd es s)) := rfl

/-- Settles O57: after START the two states differ in the counter alone, which no command of the call reads. -/
theorem callResultDependsOnSymbolsOnly : Obligations.CallResultDependsOnSymbolsOnly := by
  intro s s' x rest hp hp' hcmd hcmd'
  have hlen : x.length + 2 = (compressExpansion x).length := by simp [compressExpansion]
  have hidle : (setCmd rest s).phase = .idle := hp
  obtain ⟨t, hall⟩ := (callInvariant_of_closed (.inl hidle)).exists_execAll_next (compressExpansion x)
  rw [hlen]
  refine ⟨t, runSteps_streamOf hcmd hall, runSteps_streamOf hcmd' ?_⟩
  rw [compressExpansion, execAll_start_cons hidle] at hall
  rw [compressExpansion, execAll_start_cons (s := setCmd rest s') hp', startCall_setCmd_eq s s']
  exact execAll_setResets hall s'.resets

end Sys2Proof.Machine
end

section
/-! PROOFS. The bytes of a call: what EMIT and FLUSH append, how many bytes each SYM emits, and the length of OUT after the call
(R79 to R81). -/

namespace Sys2Proof.Machine

/-! ### EMIT and FLUSH -/

/-- The bytes of FLUSH put together are the word (R34). -/
theorem append_bytes_eq (a : Word) :
    ((a.extractLsb' 24 8 ++ a.extractLsb' 16 8 : BitVec 16) ++ a.extractLsb' 8 8 : BitVec 24) ++ a.extractLsb' 0 8 = a := by
  have h16 : a.extractLsb' 24 8 ++ a.extractLsb' 16 8 = a.extractLsb' 16 16 :=
    BitVec.extractLsb'_append_extractLsb'_eq_extractLsb' rfl
  have h24 : a.extractLsb' 16 16 ++ a.extractLsb' 8 8 = a.extractLsb' 8 24 :=
    BitVec.extractLsb'_append_extractLsb'_eq_extractLsb' rfl
  have h32 : a.extractLsb' 8 24 ++ a.extractLsb' 0 8 = a.extractLsb' 0 32 :=
    BitVec.extractLsb'_append_extractLsb'_eq_extractLsb' rfl
  rw [h16, h24, h32, BitVec.extractLsb'_eq_self]

/-- Settles O45: both are their definitions, and the four bytes are the word cut in four. -/
theorem bytePackerAppends : Obligations.BytePackerAppends :=
  ⟨fun _ _ => rfl, flush_eq, fun s => append_bytes_eq s.low⟩

/-! ### The bytes one SYM emits -/

/-- How many bytes the SYM of `b` emits in an open call: the `k_j` of R81. -/
def symBytes (b : Byte) (s : State) : Nat :=
  (codeWithUnit b (unitOf s) s).out.length - s.out.length

/-- The interval a SYM of `b` hands to RENORM (R86). -/
abbrev narrowed (b : Byte) (s : State) : State :=
  narrow (unitOf s) (memRead (lowIndex b) s) (memRead (highIndex b) s) s

/-- A SYM emits one byte in each iteration of its RENORM, of which there are at most three (R74, R75). -/
theorem symBytes_spec (b : Byte) (s : State) :
    (codeWithUnit b (unitOf s) s).out.length = s.out.length + symBytes b s ∧ symBytes b s ≤ 3 ∧
      EntersRounds (symBytes b s) (narrowed b s) := by
  obtain ⟨k, hk, heq, henter⟩ := renorm_eq_iterate (narrowed b s)
  have hout : (codeWithUnit b (unitOf s) s).out = (renormStep^[k] (narrowed b s)).out := by
    rw [codeWithUnit_eq, ← heq]; rfl
  have hlen : (codeWithUnit b (unitOf s) s).out.length = s.out.length + k := by
    rw [hout, iterate_renormStep_out_length]; rfl
  have hbytes : symBytes b s = k := by rw [symBytes, hlen, Nat.add_sub_cancel_left]
  rw [hbytes]
  exact ⟨hlen, hk, henter⟩

/-- Nothing truncates before the last iteration, and it is entered at or below 65536. -/
theorem EntersRounds.entry_le {k : Nat} {s : State} (h : EntersRounds (k + 1) s) :
    (s.range.toNat + 1) * 256 ^ k ≤ 65537 := by
  have hall : EntersRounds k s := fun j hj => h j (Nat.lt_succ_of_lt hj)
  rw [← hall.range_add_one]
  exact Nat.succ_le_succ (h k k.lt_succ_self)

section
variable {s : State} (ho : callOpen s) (hinv : CallInvariant s)
include ho hinv

/-- NARROW leaves at least the unit in RANGE. -/
theorem CallInvariant.unit_le_narrowed (b : Byte) : (unitOf s).toNat ≤ (narrowed b s).range.toNat :=
  hinv.unit_le_unit_mul_freq ho b

/-- With a unit of at least 1 a SYM emits at most two bytes: three need RANGE = 0 at entry (R75). -/
theorem CallInvariant.symBytes_le_two (b : Byte) (hlim : (memRead totalIndex s).toNat ≤ 65537) : symBytes b s ≤ 2 := by
  have hwide : 65537 ≤ s.range.toNat := ((callInvariant_iff s).1 hinv ho).2
  have hmin := hinv.le_total ho
  have hunit : 1 ≤ (unitOf s).toNat := (one_le_unit_iff (by omega) s).2 (hlim.trans hwide)
  have hrange := hinv.unit_le_narrowed ho b
  obtain ⟨-, hle, henter⟩ := symBytes_spec b s
  by_contra hgt
  rw [show symBytes b s = 2 + 1 by omega] at henter
  have hentry := henter.entry_le
  omega

end

/-- A SYM whose interval stays wide makes no iteration: LOW and OUT are as NARROW leaves them. -/
theorem codeWithUnit_of_wide {b : Byte} {s : State} (h : rangeWide (narrowed b s)) :
    (codeWithUnit b (unitOf s) s).low = (narrowed b s).low ∧ (codeWithUnit b (unitOf s) s).out = s.out := by
  rw [codeWithUnit_eq]
  exact ⟨congrArg (·.low) (renorm_of_wide h), congrArg (·.out) (renorm_of_wide h)⟩

/-! ### The first SYM of a call -/

theorem unitOf_startCall (s : State) : unitOf (startCall s) = 0x00FFFFFF := by
  rw [unitOf, memRead, startCall_tbl, startCall_range, tableInit_get]; decide

/-- The first SYM emits nothing and puts `b * 0x00FFFFFF` in LOW (R81). -/
theorem codeWithUnit_startCall (b : Byte) {s : State} (h : s.phase = .idle) :
    (codeWithUnit b (unitOf (startCall s)) (startCall s)).low = symbolValue b * 0x00FFFFFF ∧
      (codeWithUnit b (unitOf (startCall s)) (startCall s)).out = [] := by
  have hrange := (startCall_callInvariant h).unit_le_narrowed (.inl rfl) b
  have hwide : rangeWide (narrowed b (startCall s)) := Nat.le_trans (by rw [unitOf_startCall]; decide) hrange
  obtain ⟨hlow, hout⟩ := codeWithUnit_of_wide hwide
  refine ⟨?_, hout⟩
  have hsym : memRead (lowIndex b) (startCall s) = symbolValue b := by
    rw [memRead, startCall_tbl, tableInit_get]
    exact BitVec.ofNat_toNat 32 b
  rw [hlow, narrow_low, startCall_low, unitOf_startCall, hsym, zero_add, mul_comm]

theorem symBytes_startCall (b : Byte) {s : State} (h : s.phase = .idle) : symBytes b (startCall s) = 0 := by
  obtain ⟨-, hout⟩ := codeWithUnit_startCall b h
  rw [symBytes, hout]; rfl

@[simp] theorem coderOf_low (s : State) : (coderOf s).low = s.low := rfl
@[simp] theorem coderOf_out (s : State) : (coderOf s).out = s.out := rfl

theorem coderAll_singleton (b : Byte) (c : Coder) : coderAll [b] c = coderSymbol b c := by
  rw [coderAll]
  cases coderSymbol b c with
  | none => rfl
  | some c' => rfl

/-- The output is OUT after the loop of R88 and the four bytes of LOW. -/
theorem compress_of_coderAll {x : List Byte} {c : Coder} (hx : x ≠ []) (h : coderAll x coderStart = some c) :
    compress x = .ok (c.out ++ bytesMsbFirst c.low) := by
  cases x with
  | nil => exact absurd rfl hx
  | cons b x => rw [compress, h]

/-- The output of a call with one symbol (R81), through the coder of R88. -/
theorem compress_singleton (b : Byte) : compress [b] = .ok (bytesMsbFirst (symbolValue b * 0x00FFFFFF)) := by
  have hidle : State.reset.phase = .idle := rfl
  have hsym := coderSymbol_coderOf b ((startCall_callInvariant hidle).total_ne_zero (.inl rfl))
  rw [coderOf_startCall] at hsym
  obtain ⟨hlow, hout⟩ := codeWithUnit_startCall b hidle
  rw [compress_of_coderAll (List.cons_ne_nil b []) ((coderAll_singleton b _).trans hsym), coderOf_out, coderOf_low,
    hlow, hout, List.nil_append]

/-! ### The bytes of all SYMs of a call -/

/-- The bytes each SYM of an open call emits, in order (R81). -/
def callBytes : List Byte → State → List Nat
  | [], _ => []
  | b :: x, s => symBytes b s :: callBytes x (codeWithUnit b (unitOf s) s)

theorem callBytes_length (x : List Byte) (s : State) : (callBytes x s).length = x.length := by
  induction x generalizing s with
  | nil => rfl
  | cons b x ih => exact congrArg (· + 1) (ih _)

theorem callBytes_take (x : List Byte) (j : Nat) (s : State) : callBytes (x.take j) s = (callBytes x s).take j := by
  induction x generalizing s j with
  | nil => rw [List.take_nil, callBytes, List.take_nil]
  | cons b x ih =>
    cases j with
    | zero => rfl
    | succ j => exact congrArg (symBytes b s :: ·) (ih j _)

theorem callBytes_le_three (x : List Byte) (s : State) : ∀ k ∈ callBytes x s, k ≤ 3 := by
  induction x generalizing s with
  | nil => exact nofun
  | cons b x ih =>
    obtain ⟨-, hle, -⟩ := symBytes_spec b s
    exact List.forall_mem_cons.2 ⟨hle, ih _⟩

/-- Each SYM adds 1 to the total, so a SYM of a short enough call meets a total of at most 65537 (R71, R81). -/
theorem callBytes_le_two {x : List Byte} {s : State} (ho : callOpen s) (hinv : CallInvariant s)
    (hlim : (memRead totalIndex s).toNat + x.length ≤ 65538) : ∀ k ∈ callBytes x s, k ≤ 2 := by
  induction x generalizing s with
  | nil => exact nofun
  | cons b x ih =>
    rw [List.length_cons] at hlim
    obtain ⟨u, hexec, hou, hiu, htot⟩ := hinv.exec_sym_total ho b (by omega)
    obtain rfl : codeWithUnit b (unitOf s) s = u := Host.Outcome.next.inj ((hinv.exec_sym ho b).symm.trans hexec)
    exact List.forall_mem_cons.2 ⟨hinv.symBytes_le_two ho b (by omega), ih hou hiu (by omega)⟩

/-- The SYMs of an open call append as many bytes as `callBytes` says, and leave the call in CODING when there is one. -/
theorem execAll_syms_out_length (x : List Byte) {s : State} (ho : callOpen s) (hinv : CallInvariant s) :
    ∃ t, execAll (x.map Instr.sym) s = .next t ∧ t.out.length = s.out.length + (callBytes x s).sum ∧
      (s.phase = .coding ∨ x ≠ [] → t.phase = .coding) := by
  induction x generalizing s with
  | nil => exact ⟨s, rfl, rfl, fun h => h.resolve_right (· rfl)⟩
  | cons b x ih =>
    have hexec := hinv.exec_sym ho b
    have hcoding := codeWithUnit_phase b (unitOf s) s
    obtain ⟨t, hall, hlen, hphase⟩ := ih (.inr hcoding) ((commandEffect_of_exec hexec).keeps_callInvariant hinv)
    obtain ⟨hout, -⟩ := symBytes_spec b s
    refine ⟨t, (execAll_cons_of_next hexec).trans hall, ?_, fun _ => hphase (.inl hcoding)⟩
    rw [hlen, hout, callBytes, List.sum_cons, Nat.add_assoc]

/-! ### The length of OUT after a call -/

section
variable {s : State} (hp : s.phase = .idle)
include hp

/-- START and the SYMs of a call leave as many bytes as the SYMs emit. -/
theorem execAll_start_syms_out_length (x : List Byte) :
    ∃ t, execAll (.start :: x.map Instr.sym) s = .next t ∧ t.out.length = (callBytes x (startCall s)).sum ∧
      (x ≠ [] → t.phase = .coding) := by
  obtain ⟨t, hall, hlen, hphase⟩ := execAll_syms_out_length x (.inl rfl) (startCall_callInvariant hp)
  refine ⟨t, (execAll_start_cons hp _).trans hall, ?_, fun hx => hphase (.inr hx)⟩
  rw [hlen, startCall_out, List.length_nil, Nat.zero_add]

/-- The SYM with index `j` emits the `j`-th of the numbers. -/
theorem execAll_take_out_length (x : List Byte) {j : Nat} (hj : j < x.length) :
    ∃ u v, execAll (.start :: (x.take j).map Instr.sym) s = .next u ∧
      execAll (.start :: (x.take (j + 1)).map Instr.sym) s = .next v ∧
      v.out.length = u.out.length + (callBytes x (startCall s)).getD j 0 := by
  obtain ⟨u, hu, hulen, -⟩ := execAll_start_syms_out_length hp (x.take j)
  obtain ⟨v, hv, hvlen, -⟩ := execAll_start_syms_out_length hp (x.take (j + 1))
  have hj' : j < (callBytes x (startCall s)).length := (callBytes_length _ _).symm ▸ hj
  refine ⟨u, v, hu, hv, ?_⟩
  rw [hvlen, hulen, callBytes_take, callBytes_take, List.sum_take_succ _ _ hj', List.getD_eq_getElem _ _ hj']

/-- The whole call adds the four bytes of FLUSH. -/
theorem execAll_compressExpansion_out_length {x : List Byte} (hx : x ≠ []) :
    ∃ t, execAll (compressExpansion x) s = .next t ∧ t.out.length = (callBytes x (startCall s)).sum + 4 := by
  obtain ⟨u, hall, hlen, hphase⟩ := execAll_start_syms_out_length hp x
  have hfinish := (CommandEffect.finished (hphase hx)).exec_eq
  refine ⟨_, (execAll_append_of_next hall).trans (execAll_cons_of_next hfinish), ?_⟩
  exact (List.length_append ..).trans (congrArg (· + 4) hlen)

end

/-- Settles O55: the numbers are `callBytes`, whose first is 0 and whose others are at most 3. -/
theorem outputLength : Obligations.OutputLength := by
  refine ⟨fun s x hp hx => ?_, compress_singleton⟩
  obtain ⟨b, y, rfl⟩ := List.exists_cons_of_ne_nil hx
  have hfirst : callBytes (b :: y) (startCall s) = 0 :: callBytes y (codeWithUnit b (unitOf (startCall s)) (startCall s)) := by
    rw [callBytes, symBytes_startCall b hp]
  obtain ⟨t, hall, hlen⟩ := execAll_compressExpansion_out_length hp hx
  have hstart := startCall_total s
  refine ⟨callBytes (b :: y) (startCall s), callBytes_length _ _, by rw [hfirst]; rfl, callBytes_le_three _ _,
    fun hshort => callBytes_le_two (.inl rfl) (startCall_callInvariant hp) (by omega),
    fun j hj => execAll_take_out_length hp _ hj, t, hall, hlen, by omega, ?_⟩
  have hsum := List.sum_le_card_nsmul _ 3 (callBytes_le_three y (codeWithUnit b (unitOf (startCall s)) (startCall s)))
  rw [callBytes_length, smul_eq_mul] at hsum
  rw [hlen, hfirst, List.sum_cons, List.length_cons]
  omega

end Sys2Proof.Machine
end

section
/-! PROOFS. The three commands and a command word in every phase, and the whole effect of a SYM, its bytes counted by the range
NARROW leaves (R84 to R87). -/

namespace Sys2Proof.Machine

/-! ### A command in every phase -/

/-- Settles O21: START where it is accepted, where it is misplaced and where it is ignored. -/
theorem startOpensACall : Obligations.StartOpensACall := fun s =>
  ⟨fun hp => ⟨startCall s, exec_of_idle .start hp, tableInit_toNat, startCall_low s, startCall_range s, startCall_out s,
      startCall_err s, startCall_done s, startCall_phase s, startCall_cmd s, startCall_resets s⟩,
    fun ho => (CommandEffect.misplaced (.inl ⟨rfl, ho⟩)).exec_eq, exec_of_fault .start⟩

/-- Settles O23: FINISH with symbols coded, with none, misplaced and ignored. -/
theorem finishEndsTheCall : Obligations.FinishEndsTheCall := fun _ =>
  ⟨fun hp => (CommandEffect.finished hp).exec_eq, fun hp => (CommandEffect.emptyCall hp).exec_eq,
    exec_of_idle .finish, exec_of_fault .finish⟩

theorem execSym_of_callOpen (b : Byte) {s : State} (h : callOpen s) : exec (.sym b) s = codeSymbol b s := by
  rw [exec_sym_eq, guarded_of_accepts (ne_fault_of_callOpen h) ((acceptsSym_iff _).2 h)]

section
variable {s : State} (hf : s.phase ≠ .fault)
include hf

/-- START outside FAULT: IDLE is the phase that accepts it (R84, R85). -/
theorem execStart_of_ne_fault :
    exec .start s = if s.phase = .idle then .next (startCall s) else .next (raiseError .badSequence s) := by
  split
  case isTrue hp => exact exec_of_idle .start hp
  case isFalse hp => exact (CommandEffect.misplaced (.inl ⟨rfl, callOpen_of_ne hf hp⟩)).exec_eq

/-- SYM outside FAULT: IDLE is the phase that does not accept it (R84, R86). -/
theorem execSym_of_ne_fault (b : Byte) :
    exec (.sym b) s = if s.phase = .idle then .next (raiseError .badSequence s) else codeSymbol b s := by
  split
  case isTrue hp => exact exec_of_idle (.sym b) hp
  case isFalse hp => exact execSym_of_callOpen b (callOpen_of_ne hf hp)

/-- FINISH outside FAULT: IDLE is the phase that does not accept it (R84, R87). -/
theorem execFinish_of_ne_fault :
    exec .finish s = if s.phase = .idle then .next (raiseError .badSequence s) else .next (finishCall s) := by
  split
  case isTrue hp => exact exec_of_idle .finish hp
  case isFalse hp => exact execFinish_of_callOpen (callOpen_of_ne hf hp)

end

/-- Settles O6: the word is ignored, is illegal, or is one of the three commands, run on the state with the word consumed. -/
theorem sequencerExecutesAWord : Obligations.SequencerExecutesAWord := by
  intro s w rest hcmd
  rw [step_of_word hcmd]
  refine ⟨runWord_of_fault (s := setCmd rest s) w, fun hf => ?_⟩
  have hfu : (setCmd rest s).phase ≠ .fault := hf
  exact ⟨runWord_of_error hfu, fun hd => (runWord_of_ok hfu hd).trans (execStart_of_ne_fault hfu),
    fun b hd => (runWord_of_ok hfu hd).trans (execSym_of_ne_fault hfu b),
    fun hd => (runWord_of_ok hfu hd).trans (execFinish_of_ne_fault hfu)⟩

/-! ### The whole effect of a SYM -/

/-- What a count of iterations says of the range it is for: none when it is wide, otherwise the first power of 256 that
carries RANGE + 1 past 65537 (R75). -/
theorem renormCount_cases (r : Word) :
    (renormCount r = 0 ∧ 65537 ≤ r.toNat) ∨
    ∃ k, renormCount r = k + 1 ∧ (r.toNat + 1) * 256 ^ k ≤ 65537 ∧ 65537 < (r.toNat + 1) * 256 ^ (k + 1) := by
  unfold renormCount
  split_ifs with h0 h1 h2
  · exact .inl ⟨rfl, h0⟩
  · exact .inr ⟨0, rfl, by omega, by omega⟩
  · exact .inr ⟨1, rfl, by omega, by omega⟩
  · exact .inr ⟨2, rfl, by omega, by omega⟩

/-- RENORM with its number of iterations read off the range at entry: OUT, LOW and RANGE at exit (R74, R75). -/
theorem renorm_of_renormCount (s : State) :
    (renorm s).out = s.out ++ (bytesMsbFirst s.low).take (renormCount s.range) ∧
    (renorm s).low = s.low <<< (8 * renormCount s.range) ∧
    (renorm s).range.toNat = s.range.toNat * 256 ^ renormCount s.range + (256 ^ renormCount s.range - 1) := by
  obtain ⟨hk, hwide⟩ | ⟨k, hk, hlo, hhi⟩ := renormCount_cases s.range <;> rw [hk]
  · rw [renorm_of_wide hwide]
    simp
  · obtain ⟨hout, hlow, hrange⟩ := renorm_of_range k hlo hhi
    have hpos : 1 ≤ 256 ^ (k + 1) := Nat.one_le_pow _ _ (by decide)
    rw [Nat.add_mul, Nat.one_mul] at hrange
    exact ⟨hout, hlow, by omega⟩

@[simp] theorem codeWithUnit_cmd (b : Byte) (unit : Word) (s : State) : (codeWithUnit b unit s).cmd = s.cmd := by
  simp [codeWithUnit_eq, narrow]

@[simp] theorem codeWithUnit_resets (b : Byte) (unit : Word) (s : State) : (codeWithUnit b unit s).resets = s.resets := by
  simp [codeWithUnit_eq, narrow]

/-- The interval and OUT after a SYM: those of NARROW, renormalized (R86). -/
theorem codeWithUnit_interval (b : Byte) (s : State) :
    (codeWithUnit b (unitOf s) s).out = (renorm (narrowed b s)).out ∧
    (codeWithUnit b (unitOf s) s).low = (renorm (narrowed b s)).low ∧
    (codeWithUnit b (unitOf s) s).range = (renorm (narrowed b s)).range := by
  rw [codeWithUnit_eq]
  exact ⟨rfl, rfl, rfl⟩

/-- The table after a SYM: that of UPDATE, rebuilt gap by gap when its total exceeds the limit (R57 to R59). -/
theorem tableAfterSym_spec (b : Byte) (t : Table) :
    if 8388608 < (entry (tableUpdate b t) totalIndex).toNat then
      entry (tableAfterSym b t) 0 = entry (tableUpdate b t) 0 ∧
      ∀ i : Fin 256, entry (tableAfterSym b t) i.succ = entry (tableAfterSym b t) i.castSucc +
        (((entry (tableUpdate b t) i.succ - entry (tableUpdate b t) i.castSucc) >>> 1) + 1)
    else tableAfterSym b t = tableUpdate b t := by
  split
  case isTrue h =>
    have heq : tableAfterSym b t = tableRescale (tableUpdate b t) := if_pos h
    rw [heq]
    exact ⟨tableRescale_zero _, tableRescale_succ _⟩
  case isFalse h => exact if_neg h

/-- Settles O22: the unit and NARROW are the definitions, RENORM is `renorm_of_renormCount`, the table `tableAfterSym_spec`. -/
theorem symCodesOneByte : Obligations.SymCodesOneByte := by
  refine fun b s => ⟨fun ho hz => ?_, exec_of_idle (.sym b), exec_of_fault (.sym b)⟩
  obtain ⟨hout, hlow, hrange⟩ := codeWithUnit_interval b s
  obtain ⟨hrout, hrlow, hrrange⟩ := renorm_of_renormCount (narrowed b s)
  refine ⟨_, (CommandEffect.coded ho hz).exec_eq, hlow.trans hrlow, (congrArg BitVec.toNat hrange).trans hrrange,
    hout.trans hrout, ⟨tableUpdate b s.tbl, tableUpdate_get b s.tbl, ?_⟩, codeWithUnit_phase _ _ _,
    codeWithUnit_err _ _ _, codeWithUnit_done _ _ _, codeWithUnit_cmd _ _ _, codeWithUnit_resets _ _ _⟩
  rw [codeWithUnit_tbl]
  exact tableAfterSym_spec b s.tbl

end Sys2Proof.Machine
end

section
/-! PROOFS. The transition table of PHASE, cell by cell, and the streams of words that end in IDLE or stay out of FAULT (R89). -/

namespace Sys2Proof.Machine

/-! ### The streams that a phase accepts -/

/-- The streams of commands that, taken up in this phase, are the rest of a concatenation of calls (R89). -/
def restOfCalls (p : Phase) (is : List Instr) : Bool :=
  match p with
  | .idle => streamFrom false is
  | .opened => streamFrom true is
  | .coding => streamFrom true is
  | .fault => false

theorem restOfCalls_nil (p : Phase) : restOfCalls p [] = true ↔ p = .idle := by
  cases p <;> decide

/-- Outside FAULT a call can always be finished. -/
theorem ne_fault_iff_exists_restOfCalls (p : Phase) : p ≠ .fault ↔ ∃ is, restOfCalls p is = true := by
  cases p with
  | idle => exact ⟨fun _ => ⟨[], rfl⟩, nofun⟩
  | opened => exact ⟨fun _ => ⟨[.finish], rfl⟩, nofun⟩
  | coding => exact ⟨fun _ => ⟨[.finish], rfl⟩, nofun⟩
  | fault => exact ⟨fun h => absurd rfl h, nofun⟩

/-- A command moves from the phase that accepts a stream beginning with it to one that accepts the rest. -/
theorem CommandEffect.restOfCalls_cons {i : Instr} {s t : State} (h : CommandEffect i s t) (is : List Instr) :
    restOfCalls s.phase (i :: is) = restOfCalls t.phase is := by
  cases h with
  | ignored hp => rw [hp]; rfl
  | started hp => rw [hp]; rfl
  | coded hp => obtain hp | hp := hp <;> rw [hp, codeWithUnit_phase] <;> rfl
  | emptyCall hp => rw [hp]; rfl
  | finished hp => rw [hp]; rfl
  | misplaced hp =>
    obtain ⟨rfl, hp | hp⟩ | ⟨hi, hp⟩ := hp
    · rw [hp]; rfl
    · rw [hp]; rfl
    · rw [hp]
      cases i with
      | start => exact absurd rfl hi
      | sym b => rfl
      | finish => rfl

theorem restOfCalls_append {is : List Instr} {s t : State} (h : execAll is s = .next t) (js : List Instr) :
    restOfCalls s.phase (is ++ js) = restOfCalls t.phase js := by
  induction is generalizing s with
  | nil => cases h; rfl
  | cons i is ih =>
    obtain ⟨u, hexec, hall⟩ := execAll_cons_eq_next.1 h
    exact ((commandEffect_of_exec hexec).restOfCalls_cons _).trans (ih hall)

/-! ### Streams of words -/

theorem encode_of_decode {w : CmdWord} {i : Instr} (h : decode w = .ok i) : encode i = w := by
  unfold decode at h
  split_ifs at h with hstart hsym hfinish <;> cases h
  · exact hstart.symm
  · exact (congrArg (· ++ argOf w) hsym).symm.trans (opcOf_append_argOf w)
  · exact hfinish.symm

/-- Words run from a state that meets the invariant without a stop, and one that is no command puts it in FAULT for good. -/
theorem runSteps_words {ws : List CmdWord} {rest : List HostEvent} {s : State} (hinv : CallInvariant s)
    (hcmd : s.cmd = ws.map HostEvent.word ++ rest) :
    ∃ t, runSteps ws.length s = .next t ∧ t.cmd = rest ∧
      (t.phase ≠ .fault → s.phase ≠ .fault ∧ ∃ is : List Instr, ws = is.map encode) := by
  induction ws generalizing s with
  | nil => exact ⟨s, rfl, hcmd, fun hp => ⟨hp, [], rfl⟩⟩
  | cons w ws ih =>
    obtain ⟨u, hstep⟩ := hinv.exists_step_next
    obtain ⟨t, hrun, htcmd, ht⟩ :=
      ih (step_keeps_callInvariant hstep hinv) (eventsAreConsumedInOrder.1 s u _ _ hcmd hstep)
    refine ⟨t, by rw [List.length_cons, runSteps, hstep]; exact hrun, htcmd, fun hp => ?_⟩
    obtain ⟨hu, is, rfl⟩ := ht hp
    rw [step_of_word hcmd] at hstep
    obtain ⟨hf, rfl⟩ | ⟨-, -, rfl⟩ | ⟨hs, i, hd, -⟩ := runWord_cases hstep
    · exact absurd hf hu
    · exact absurd rfl hu
    · exact ⟨hs, i :: is, by rw [List.map_cons, encode_of_decode hd]⟩

/-- The last sentence of R89, from the phase the words leave: the commands they stand for decide it. -/
theorem runSteps_words_of_idle {ws : List CmdWord} {rest : List HostEvent} {s : State} (hp : s.phase = .idle)
    (hcmd : s.cmd = ws.map HostEvent.word ++ rest) :
    ∃ t, runSteps ws.length s = .next t ∧ t.cmd = rest ∧
      (t.phase = .idle ↔ ∃ is : List Instr, ws = is.map encode ∧ streamWellFormed is = true) ∧
      (t.phase ≠ .fault ↔ ∃ is js : List Instr, ws = is.map encode ∧ streamWellFormed (is ++ js) = true) := by
  have hinv : CallInvariant s := callInvariant_of_closed (.inl hp)
  obtain ⟨t, hrun, htcmd, hlegal⟩ := runSteps_words hinv hcmd
  have hrest : ∀ is : List Instr, ws = is.map encode → ∀ js, streamWellFormed (is ++ js) = restOfCalls t.phase js := by
    rintro is rfl js
    have hcmd' : s.cmd = streamOf is ++ rest := by rw [hcmd, List.map_map]; rfl
    obtain ⟨v, hall⟩ := CallInvariant.exists_execAll_next (s := setCmd rest s) hinv is
    have hv := runSteps_streamOf hcmd' hall
    rw [List.length_map, hv, Host.Outcome.next.injEq] at hrun
    rw [← hrun, ← restOfCalls_append hall, setCmd_phase, hp]
    rfl
  refine ⟨t, hrun, htcmd, ⟨fun ht => ?_, ?_⟩, ⟨fun ht => ?_, ?_⟩⟩
  · obtain ⟨-, is, hws⟩ := hlegal (by simp [ht])
    exact ⟨is, hws, by rw [← List.append_nil is, hrest is hws, restOfCalls_nil]; exact ht⟩
  · rintro ⟨is, hws, hwf⟩
    rw [← List.append_nil is, hrest is hws] at hwf
    exact (restOfCalls_nil _).1 hwf
  · obtain ⟨-, is, hws⟩ := hlegal ht
    obtain ⟨js, hjs⟩ := (ne_fault_iff_exists_restOfCalls _).1 ht
    exact ⟨is, js, hws, (hrest is hws js).trans hjs⟩
  · rintro ⟨is, js, hws, hwf⟩
    exact (ne_fault_iff_exists_restOfCalls _).2 ⟨js, (hrest is hws js).symm.trans hwf⟩

/-! ### The table -/

/-- SYM of an open call whose total is not 0 goes to CODING (R86). -/
theorem exec_sym_next (b : Byte) {s : State} (ho : callOpen s) (hz : entry s.tbl totalIndex ≠ 0) :
    ∃ t, exec (.sym b) s = .next t ∧ codeSymbol b s = .next t ∧ t.phase = .coding := by
  have hexec := (CommandEffect.coded (b := b) ho hz).exec_eq
  exact ⟨_, hexec, (execSym_of_callOpen b ho).symm.trans hexec, codeWithUnit_phase _ _ _⟩

/-- Settles O9: the cells by word and phase, each the case of the word or of its command; the streams by `restOfCalls`. -/
theorem phaseTransitionTable : Obligations.PhaseTransitionTable := by
  refine fun s rest => ⟨fun w hcmd => ?_, fun hcmd => ⟨_, step_of_reset hcmd, rfl⟩, fun ws hp hcmd =>
    runSteps_words_of_idle hp hcmd⟩
  rw [step_of_word hcmd]
  by_cases hf : (setCmd rest s).phase = .fault
  · rw [show s.phase = .fault from hf]
    exact runWord_of_fault w hf
  have hopen : s.phase ≠ .idle → callOpen (setCmd rest s) := callOpen_of_ne hf
  cases hd : decode w with
  | error e =>
    have hrun := runWord_of_error hf hd
    cases hp : s.phase with
    | fault => exact absurd hp hf
    | idle | opened | coding => exact hrun
  | ok i =>
    have hrun := runWord_of_ok hf hd
    cases i with
    | start =>
      cases hp : s.phase with
      | fault => exact absurd hp hf
      | idle => exact ⟨_, hrun.trans (exec_of_idle .start (s := setCmd rest s) hp), rfl, rfl, rfl, rfl, rfl, rfl, tableInit_toNat⟩
      | opened | coding => exact hrun.trans (CommandEffect.misplaced (.inl ⟨rfl, hopen (by simp [hp])⟩)).exec_eq
    | sym b =>
      have hcoded := exec_sym_next b (s := setCmd rest s)
      rw [← hrun] at hcoded
      cases hp : s.phase with
      | fault => exact absurd hp hf
      | idle => exact hrun.trans (exec_of_idle (.sym b) (s := setCmd rest s) hp)
      | opened | coding => exact hcoded (hopen (by simp [hp]))
    | finish =>
      cases hp : s.phase with
      | fault => exact absurd hp hf
      | idle => exact hrun.trans (exec_of_idle .finish (s := setCmd rest s) hp)
      | opened => exact hrun.trans (CommandEffect.emptyCall (s := setCmd rest s) hp).exec_eq
      | coding => exact hrun.trans (CommandEffect.finished (s := setCmd rest s) hp).exec_eq

end Sys2Proof.Machine
end

section
/-! PROOFS. Whole calls from IDLE: what FINISH leaves, the agreement of the command form with the function form, the
properties of COMPRESS, and what STATUS shows (R88, R90, R92). -/

namespace Sys2Proof.Machine

/-! ### The SYMs of a call -/

/-- A SYM of an open call goes to CODING, keeps ERR and only appends to OUT. -/
theorem exec_sym_keeps {b : Byte} {s t : State} (ho : callOpen s) (h : exec (.sym b) s = .next t) :
    t.phase = .coding ∧ t.err = s.err ∧ s.out <+: t.out := by
  obtain ⟨bs, -, happ⟩ := exec_appends h nofun
  obtain ⟨hout, -, -⟩ := happ.frame h
  have hpre : s.out <+: t.out := ⟨bs, hout.symm⟩
  cases commandEffect_of_exec h with
  | ignored hp => exact absurd hp (ne_fault_of_callOpen ho)
  | coded => exact ⟨codeWithUnit_phase _ _ _, codeWithUnit_err _ _ _, hpre⟩
  | misplaced hp =>
    obtain ⟨hi, -⟩ | ⟨-, hp⟩ := hp
    · cases hi
    · rcases ho with ho | ho <;> cases hp.symm.trans ho

theorem execAll_syms_keeps {x : List Byte} {s t : State} (ho : callOpen s) (h : execAll (x.map Instr.sym) s = .next t) :
    t.phase = (if x = [] then s.phase else .coding) ∧ t.err = s.err ∧ s.out <+: t.out := by
  induction x generalizing s with
  | nil => cases h; exact ⟨rfl, rfl, List.prefix_rfl⟩
  | cons b x ih =>
    obtain ⟨u, hexec, hall⟩ := execAll_cons_eq_next.1 h
    obtain ⟨hup, hue, huo⟩ := exec_sym_keeps ho hexec
    obtain ⟨htp, hte, hto⟩ := ih (.inr hup) hall
    exact ⟨by rw [htp, hup, ite_self, if_neg (List.cons_ne_nil b x)], hte.trans hue, huo.trans hto⟩

/-! ### Whole calls -/

section
variable {s : State} (hp : s.phase = .idle)
include hp

/-- The call on the empty input ends with EmptyInput (R97). -/
theorem execAll_compressExpansion_nil : execAll (compressExpansion []) s = .next (raiseError .emptyInput (startCall s)) :=
  (execAll_start_cons hp _).trans (execAll_cons_of_next (CommandEffect.emptyCall rfl).exec_eq)

/-- Any other call ends with the flush, and OUT is then the result of the function form (R87, R88). -/
theorem execAll_compressExpansion_of_ne {x : List Byte} (hx : x ≠ []) :
    ∃ u, execAll (.start :: x.map Instr.sym) s = .next u ∧ callOpen u ∧ u.err = .noError ∧
      execAll (compressExpansion x) s = .next (setPhase .idle (setDone true (setOut (u.out ++ bytesMsbFirst u.low) u))) ∧
      compress x = .ok (u.out ++ bytesMsbFirst u.low) := by
  obtain ⟨u, hsyms, ho, -, hcoder⟩ := execAll_syms_coderAll x (.inl rfl) (startCall_callInvariant hp)
  obtain ⟨hphase, herr, -⟩ := execAll_syms_keeps (.inl rfl) hsyms
  have hall := (execAll_start_cons hp _).trans hsyms
  have hfinish := (CommandEffect.finished (hphase.trans (if_neg hx))).exec_eq
  exact ⟨u, hall, ho, herr, (execAll_append_of_next hall).trans (execAll_cons_of_next hfinish), compress_of_coderAll hx hcoder⟩

/-- What the command form leaves in OUT is what the function form returns. -/
theorem compress_eq_out {x : List Byte} {t : State} (hx : x ≠ []) (h : execAll (compressExpansion x) s = .next t) :
    compress x = .ok t.out := by
  obtain ⟨u, -, -, -, hall, hcompress⟩ := execAll_compressExpansion_of_ne hp hx
  rw [hall] at h; cases h
  exact hcompress

end

theorem execAll_cmd {is : List Instr} {s t : State} (h : execAll is s = .next t) : t.cmd = s.cmd := by
  induction is generalizing s with
  | nil => cases h; rfl
  | cons i is ih =>
    obtain ⟨u, hexec, hall⟩ := execAll_cons_eq_next.1 h
    have hevent : runEvent (.word (encode i)) s = .next u := (runWord_encode i s).trans hexec
    exact (ih hall).trans (runEvent_setCmd hevent).1

/-- The steps that consume the words of a call run its commands and leave the stream behind it. -/
theorem runSteps_compressStream {x : List Byte} {rest : List HostEvent} {s t : State}
    (hcmd : s.cmd = compressStream x ++ rest) (h : execAll (compressExpansion x) (setCmd rest s) = .next t) :
    runSteps (x.length + 2) s = .next t ∧ t.cmd = rest := by
  have hlen : x.length + 2 = (compressExpansion x).length := by simp [compressExpansion]
  rw [hlen]
  exact ⟨runSteps_streamOf hcmd h, execAll_cmd h⟩

/-- Settles O54: the call on the empty input and on any other, each as the state it ends in. -/
theorem commandsAgreeWithCompress : Obligations.CommandsAgreeWithCompress := by
  intro s x rest hp hcmd
  have hidle : (setCmd rest s).phase = .idle := hp
  by_cases hx : x = []
  · subst hx
    obtain ⟨hrun, htcmd⟩ := runSteps_compressStream hcmd (execAll_compressExpansion_nil hidle)
    exact ⟨_, hrun, htcmd, rfl, rfl, rfl, rfl, rfl, rfl⟩
  · obtain ⟨u, -, -, herr, hall, hcompress⟩ := execAll_compressExpansion_of_ne hidle hx
    obtain ⟨hrun, htcmd⟩ := runSteps_compressStream hcmd hall
    rw [hcompress]
    exact ⟨_, hrun, htcmd, rfl, rfl, hx, herr, rfl⟩

/-! ### The properties of COMPRESS -/

/-- Two calls whose first inputs agree: what the shorter emits before its flush, the longer emits first (R90). -/
theorem compress_append_prefix {x y o o' : List Byte} (hx : x ≠ []) (h : compress x = .ok o)
    (h' : compress (x ++ y) = .ok o') : o.take (o.length - 4) <+: o' := by
  have hidle : State.reset.phase = .idle := rfl
  have hxy : x ++ y ≠ [] := List.append_ne_nil_of_left_ne_nil hx y
  obtain ⟨u, hu, ho, -, -, hcu⟩ := execAll_compressExpansion_of_ne hidle hx
  obtain ⟨v, hv, -, -, -, hcv⟩ := execAll_compressExpansion_of_ne hidle hxy
  obtain rfl : u.out ++ bytesMsbFirst u.low = o := Except.ok.inj (hcu.symm.trans h)
  obtain rfl : v.out ++ bytesMsbFirst v.low = o' := Except.ok.inj (hcv.symm.trans h')
  have hmore : execAll (y.map Instr.sym) u = .next v := by
    rw [List.map_append, ← List.cons_append, execAll_append_of_next hu] at hv
    exact hv
  obtain ⟨-, -, hpre⟩ := execAll_syms_keeps ho hmore
  rw [List.length_append, show (bytesMsbFirst u.low).length = 4 from rfl, Nat.add_sub_cancel, List.take_left]
  exact hpre.trans (List.prefix_append _ _)

/-- The two inputs by which R90 (e) shows that the model adapts: vector S5a of spec/95_test_vectors.md. -/
theorem compress_41_41_41 : compress [0x41, 0x41, 0x41] = .ok [0x41, 0x41, 0x3F, 0x39, 0x00] := rfl

/-- Vector S5b, the call that loses a carry. -/
theorem compress_41_00_41 : compress [0x41, 0x00, 0x41] = .ok [0x40, 0x00, 0x40, 0xFA, 0x8C] := rfl

/-- Settles O56: the length is that of OUT after the call (R81); the prefix is OUT before the flush. -/
theorem compressProperties : Obligations.CompressProperties := by
  refine ⟨fun x hx => ?length, rfl, fun x y o o' => compress_append_prefix, ?adaptive, fun s x o hp h => ?same⟩
  case length =>
    have hidle : State.reset.phase = .idle := rfl
    obtain ⟨ks, -, -, -, -, -, t, hall, -, hmin, hmax⟩ := outputLength.1 State.reset x hidle hx
    exact ⟨t.out, compress_eq_out hidle hx hall, hmin, hmax⟩
  case adaptive =>
    rw [compress_41_41_41, compress_41_00_41]
    simp
  case same =>
    have hx : x ≠ [] := fun hnil => by rw [hnil] at h; cases h
    obtain ⟨u, -, -, -, hall, hcompress⟩ := execAll_compressExpansion_of_ne hp hx
    exact ⟨_, hall, Except.ok.inj (hcompress.symm.trans h)⟩

/-! ### STATUS -/

theorem bitVec_append_eq_append_iff {m n : Nat} {a b : BitVec m} {c d : BitVec n} : a ++ c = b ++ d ↔ a = b ∧ c = d := by
  refine ⟨fun h => ⟨?_, ?_⟩, fun ⟨hl, hr⟩ => by rw [hl, hr]⟩
  · simpa [BitVec.extractLsb'_append_eq_left] using congrArg (BitVec.extractLsb' n m) h
  · simpa [BitVec.extractLsb'_append_eq_right] using congrArg (BitVec.extractLsb' 0 n) h

theorem phaseCode_inj {p q : Phase} : phaseCode p = phaseCode q ↔ p = q := by
  cases p <;> cases q <;> decide

theorem errCode_inj {e f : ErrCode} : errCode e = errCode f ↔ e = f := by
  cases e <;> cases f <;> decide

/-- STATUS shows DONE, ERR and PHASE, and nothing is lost in it (R19). -/
theorem status_eq_iff {s t : State} : status s = status t ↔ s.done = t.done ∧ s.err = t.err ∧ s.phase = t.phase := by
  rw [status, status, bitVec_append_eq_append_iff, bitVec_append_eq_append_iff, bitVec_append_eq_append_iff,
    BitVec.ofBool_eq_iff_eq, errCode_inj, phaseCode_inj]
  simp only [true_and, and_assoc]

theorem status_phase (s : State) : (status s).extractLsb' 0 2 = phaseCode s.phase :=
  BitVec.extractLsb'_append_eq_right

/-- STATUS after a call that succeeded (R92). -/
theorem status_eq_0x10_iff (s : State) : status s = 0x10 ↔ s.done = true ∧ s.err = .noError ∧ s.phase = .idle :=
  status_eq_iff (t := setDone true State.reset)

/-- STATUS after a call on the empty input (R92). -/
theorem status_eq_0x14_iff (s : State) : status s = 0x14 ↔ s.done = true ∧ s.err = .emptyInput ∧ s.phase = .idle :=
  status_eq_iff (t := setDone true (setErr .emptyInput State.reset))

/-- Settles O58: the state each call ends in, and STATUS as an injective view of DONE, ERR and PHASE. -/
theorem statusTellsTheResult : Obligations.StatusTellsTheResult := by
  refine ⟨fun s x hp => ?_, fun s => ⟨status_eq_0x10_iff s, status_eq_0x14_iff s, ?_⟩⟩
  · by_cases hx : x = []
    · subst hx
      exact ⟨_, _, execAll_start_cons hp [], execAll_compressExpansion_nil hp,
        fun _ => ⟨(status_eq_0x14_iff _).2 ⟨rfl, rfl, rfl⟩, rfl⟩, fun h => absurd rfl h⟩
    · obtain ⟨u, hu, -, herr, hall, -⟩ := execAll_compressExpansion_of_ne hp hx
      exact ⟨u, _, hu, hall, fun h => absurd h hx, fun _ => ⟨(status_eq_0x10_iff _).2 ⟨rfl, herr, rfl⟩, rfl⟩⟩
  · rw [status_phase]
    exact phaseCode_inj (q := .fault)

end Sys2Proof.Machine
end

section
/-! PROOFS. The errors: what a word reports and in which order, that error entry is all a failing command does, and the way
out of FAULT (R96 to R106). -/

namespace Sys2Proof.Machine

/-! ### One word in FAULT, one illegal word, one misplaced command -/

theorem step_word_of_fault {s : State} {w : CmdWord} {rest : List HostEvent} (hcmd : s.cmd = .word w :: rest)
    (hp : s.phase = .fault) : step s = .next (setCmd rest s) :=
  (step_of_word hcmd).trans (runWord_of_fault (s := setCmd rest s) w hp)

theorem step_word_of_illegal {s : State} {w : CmdWord} {rest : List HostEvent} (hcmd : s.cmd = .word w :: rest)
    (hill : isLegal w = false) (hf : s.phase ≠ .fault) :
    step s = .next (raiseError .illegalCommand (setCmd rest s)) :=
  (step_of_word hcmd).trans (runWord_of_error (s := setCmd rest s) hf ((decode_eq_illegal_iff w).2 hill))

/-- Outside FAULT, START and the other two commands are misplaced in complementary phases (R99). -/
theorem misplaced_iff {i : Instr} {s : State} (hf : s.phase ≠ .fault) :
    (i = .start ∧ callOpen s ∨ i ≠ .start ∧ s.phase = .idle) ↔ (i = .start ↔ s.phase ≠ .idle) := by
  have hopen : callOpen s ↔ s.phase ≠ .idle :=
    ⟨fun ho hp => by simp [callOpen, hp] at ho, callOpen_of_ne hf⟩
  rw [hopen]
  tauto

/-! ### The three causes -/

/-- Settles O12: a word that matches no row is illegal, and outside FAULT an illegal word is error entry and nothing else. -/
theorem illegalCommandFaults : Obligations.IllegalCommandFaults := fun _ w _ hcmd hrows hf =>
  step_word_of_illegal hcmd ((isLegal_eq_false_iff_no_row w).2 hrows) hf

/-- Settles O13: each of the three cases is a misplaced command. -/
theorem badSequenceFaults : Obligations.BadSequenceFaults := by
  rintro s i (⟨rfl, ho⟩ | ⟨⟨b, rfl⟩, hp⟩ | ⟨rfl, hp⟩)
  · exact (CommandEffect.misplaced (.inl ⟨rfl, ho⟩)).exec_eq
  · exact exec_of_idle (.sym b) hp
  · exact exec_of_idle .finish hp

/-- Settles O11: FINISH of a call without symbols is the error entry of EmptyInput, and IDLE accepts START. -/
theorem emptyInputEndsTheCall : Obligations.EmptyInputEndsTheCall := fun s hp =>
  ⟨raiseError .emptyInput s, (CommandEffect.emptyCall hp).exec_eq, rfl,
    startCall (raiseError .emptyInput s), exec_of_idle .start rfl, rfl, rfl, rfl, rfl, tableInit_toNat⟩

/-! ### The priority of the causes -/

/-- Settles O8: FAULT and the decoder decide first, then the phase; a command neither misplaced nor the FINISH of a call
without symbols is the START, the SYM or the FINISH of a well-formed call. -/
theorem causePriority : Obligations.CausePriority := by
  refine fun s rest => ⟨fun w hcmd => ⟨step_word_of_fault hcmd,
    fun hf hill => ⟨_, step_word_of_illegal hcmd hill hf, rfl, rfl⟩, fun hf i hd => ?_⟩, step_of_reset⟩
  have hmis := misplaced_iff (i := i) (s := setCmd rest s) hf
  rw [step_of_word hcmd, runWord_of_ok (s := setCmd rest s) hf hd]
  refine ⟨fun hm => ⟨_, (CommandEffect.misplaced (hmis.2 hm)).exec_eq, rfl, rfl⟩, ?_, fun hm hempty t hexec => ?_⟩
  · rintro rfl hp
    exact ⟨_, (CommandEffect.emptyCall (s := setCmd rest s) hp).exec_eq, rfl, rfl⟩
  · cases commandEffect_of_exec hexec with
    | ignored hp => exact absurd hp hf
    | started => simp
    | coded => simp
    | emptyCall hp => exact absurd ⟨rfl, hp⟩ hempty
    | finished => simp
    | misplaced hp => exact absurd (hmis.1 hp) hm

/-! ### Errors are precise -/

/-- A command that ends in FAULT, or in IDLE from OPEN, has done nothing or error entry alone (R104). -/
theorem CommandEffect.eq_or_raiseError {i : Instr} {s t : State} (h : CommandEffect i s t)
    (hend : t.phase = .fault ∨ s.phase = .opened ∧ t.phase = .idle) : t = s ∨ ∃ c, t = raiseError c s := by
  cases h with
  | ignored => exact .inl rfl
  | started => simp at hend
  | coded => simp at hend
  | emptyCall => exact .inr ⟨_, rfl⟩
  | finished hp => simp [hp] at hend
  | misplaced => exact .inr ⟨_, rfl⟩

/-- So has a command word, legal or not. -/
theorem runWord_eq_or_raiseError {w : CmdWord} {s t : State} (h : runWord w s = .next t)
    (hend : t.phase = .fault ∨ s.phase = .opened ∧ t.phase = .idle) : t = s ∨ ∃ c, t = raiseError c s := by
  obtain ⟨-, rfl⟩ | ⟨-, -, rfl⟩ | ⟨-, i, -, he⟩ := runWord_cases h
  · exact .inl rfl
  · exact .inr ⟨_, rfl⟩
  · exact he.eq_or_raiseError hend

/-- Settles O10: error entry leaves the interval, the table, the output and the counter alone. -/
theorem errorsArePrecise : Obligations.ErrorsArePrecise := by
  refine ⟨fun s => ⟨rfl, rfl, rfl⟩, fun s t w rest hcmd hstep hend => ?_⟩
  rw [step_of_word hcmd] at hstep
  obtain rfl | ⟨c, rfl⟩ := runWord_eq_or_raiseError hstep hend
  · exact ⟨rfl, rfl, rfl, rfl, rfl⟩
  · exact ⟨rfl, rfl, rfl, rfl, rfl⟩

/-! ### FAULT -/

/-- A step in FAULT changes the stream at most, or is the reset (R106, R110). -/
theorem step_cases_of_fault {s t : State} (hp : s.phase = .fault) (h : step s = .next t) :
    (∃ es, t = setCmd es s) ∨ ∃ rest, s.cmd = .reset :: rest ∧ t = hardwareReset (setCmd rest s) := by
  obtain ⟨-, hstep⟩ | ⟨rest, hcmd, hstep⟩ | ⟨w, rest, hcmd, -⟩ := step_cases s
  · rw [hstep] at h; cases h
    exact .inl ⟨s.cmd, rfl⟩
  · rw [hstep] at h; cases h
    exact .inr ⟨rest, hcmd, rfl⟩
  · rw [step_word_of_fault hcmd hp] at h; cases h
    exact .inl ⟨rest, rfl⟩

/-- In FAULT the steps that consume the words at the head of the stream do nothing else, and the run goes on from there. -/
theorem runSteps_words_of_fault (ws : List CmdWord) (n : Nat) {rest : List HostEvent} {s : State} (hp : s.phase = .fault)
    (hcmd : s.cmd = ws.map HostEvent.word ++ rest) : runSteps (ws.length + n) s = runSteps n (setCmd rest s) := by
  induction ws generalizing s with
  | nil =>
    obtain rfl : s.cmd = rest := hcmd
    rw [List.length_nil, Nat.zero_add, setCmd_self]
  | cons w ws ih =>
    rw [List.length_cons, Nat.succ_add, runSteps, step_word_of_fault hcmd hp]
    exact ih (s := setCmd (ws.map HostEvent.word ++ rest) s) hp rfl

/-- Settles O14: words in FAULT are consumed one by one; of the steps from FAULT only the reset writes PHASE. -/
theorem faultAbsorbsEveryWord : Obligations.FaultAbsorbsEveryWord := by
  refine ⟨fun ws s rest hp hcmd => runSteps_words_of_fault ws 0 hp hcmd, fun s t hp hstep ht => ?_⟩
  obtain ⟨es, rfl⟩ | ⟨rest, hcmd, rfl⟩ := step_cases_of_fault hp hstep
  · exact absurd hp ht
  · exact ⟨rest, hcmd, rfl⟩

/-! ### Recovery -/

theorem runSteps_one_of_step {s t : State} (h : step s = .next t) : runSteps 1 s = .next t := by
  simp only [runSteps, h]

/-- Settles O15: after EmptyInput the phase is IDLE, in which START opens a call and any other word raises its own cause;
in FAULT only the reset at the end of the words writes ERR. -/
theorem recoveryFromErrors : Obligations.RecoveryFromErrors := by
  refine ⟨fun s hp => ?_, fun s t hp hstep => ?_, fun s ws rest hp hcmd => ?_⟩
  · exact ⟨(CommandEffect.emptyCall hp).exec_eq, ⟨_, exec_of_idle .start rfl, rfl, rfl, rfl⟩,
      fun b => exec_of_idle (.sym b) rfl, exec_of_idle .finish rfl,
      fun w rest hill => step_word_of_illegal rfl hill nofun⟩
  · obtain ⟨es, rfl⟩ | ⟨rest, hcmd, -⟩ := step_cases_of_fault hp hstep
    · exact .inl ⟨hp, rfl⟩
    · exact .inr ⟨rest, hcmd⟩
  · have hreset := runSteps_one_of_step (step_of_reset (setCmd_cmd (.reset :: rest) s))
    exact ⟨_, (runSteps_words_of_fault ws 1 hp hcmd).trans hreset, rfl, rfl, rfl, rfl⟩

end Sys2Proof.Machine
end

section
/-! PROOFS. The hardware reset: what it leaves for the next word, and that it is the only way to abandon an open call or to
leave FAULT (R111, R112). -/

namespace Sys2Proof.Machine

/-! ### The first word after a reset -/

/-- A word in IDLE answers the same state from any other dead registers, or faults and carries them along (R111). -/
theorem runWord_withDead_of_idle (l r : Word) (tb : Table) (w : CmdWord) {s : State} (h : s.phase = .idle) :
    ∃ t, runWord w s = .next t ∧ (runWord w (withDead l r tb s) = .next t ∨
      (t.phase = .fault ∧ runWord w (withDead l r tb s) = .next (withDead l r tb t))) := by
  have hd : (withDead l r tb s).phase = .idle := h
  refine ⟨_, runWord_of_idle w h, ?_⟩
  rw [runWord_of_idle w hd]
  split
  case isTrue => exact .inl rfl
  case isFalse => exact .inr ⟨by split <;> rfl, rfl⟩

/-- Settles O17: the reset leaves phase IDLE, in which only START is accepted and reads none of the three registers. -/
theorem hardwareResetLeaves : Obligations.HardwareResetLeaves := fun s rest hcmd =>
  ⟨hardwareReset (setCmd rest s), step_of_reset hcmd, rfl, rfl, rfl, rfl, hardwareReset_status _, rfl,
    fun l r tb w => runWord_withDead_of_idle l r tb w rfl⟩

/-! ### The ways out of an open call -/

/-- Of the commands only FINISH takes an open call to IDLE (R112). -/
theorem CommandEffect.eq_finish {i : Instr} {s t : State} (h : CommandEffect i s t) (ho : callOpen s)
    (ht : t.phase = .idle) : i = .finish := by
  cases h with
  | ignored hp => simp [callOpen, hp] at ho
  | started => simp at ht
  | coded => simp at ht
  | emptyCall | finished => rfl
  | misplaced => cases ht

/-- Of the command words only FINISH takes an open call to IDLE (R112). -/
theorem runWord_eq_finish {w : CmdWord} {s t : State} (h : runWord w s = .next t) (ho : callOpen s)
    (ht : t.phase = .idle) : w = 0x0300 := by
  obtain ⟨hf, -⟩ | ⟨-, -, rfl⟩ | ⟨-, i, hd, he⟩ := runWord_cases h
  · simp [callOpen, hf] at ho
  · cases ht
  · obtain rfl := he.eq_finish ho ht
    exact (decode_eq_finish_iff w).1 hd

/-- Settles O18: without an event the phase stays, a word that ends the call is FINISH, and of the steps from FAULT only the
reset writes PHASE. -/
theorem onlyFinishOrResetEndsACall : Obligations.OnlyFinishOrResetEndsACall := by
  refine ⟨fun s t ho hstep ht => ?_, fun s t hp hstep ht => ?_⟩
  · obtain ⟨-, hq⟩ | ⟨rest, hcmd, hq⟩ | ⟨w, rest, hcmd, hq⟩ := step_cases s <;> rw [hq] at hstep
    · cases hstep
      simp [callOpen, ht] at ho
    · cases hstep
      exact ⟨rest, .inr ⟨hcmd, rfl⟩⟩
    · obtain rfl := runWord_eq_finish hstep ho ht
      exact ⟨rest, .inl hcmd⟩
  · obtain ⟨es, rfl⟩ | ⟨rest, hcmd, rfl⟩ := step_cases_of_fault hp hstep
    · exact absurd hp ht
    · exact ⟨rest, hcmd, rfl, rfl⟩

end Sys2Proof.Machine
end

section
/-! PROOFS. Commands and their words: encode and decode are inverse, a step on a word runs the command it decodes to, and the
assembler's lines (R45 to R53, R84). -/

namespace Sys2Proof.Machine

/-! ### Decoder and encoder -/

/-- Settles O3: `decode_encode` one way, `encode_of_decode` the other. -/
theorem encodeDecodeRoundTrip : Obligations.EncodeDecodeRoundTrip :=
  ⟨fun i _ => decode_encode i, fun _ _ => encode_of_decode⟩

/-- Settles O4: the decoder run on six closed words. -/
theorem spelledOutWordsDecode : Obligations.SpelledOutWordsDecode := by
  unfold Obligations.SpelledOutWordsDecode
  decide

/-! ### A step on a word -/

/-- A word that decodes runs its command in every phase: it is the command's encoding. -/
theorem runWord_of_decode {w : CmdWord} {i : Instr} (h : decode w = .ok i) (s : State) : runWord w s = exec i s := by
  rw [← encode_of_decode h, runWord_encode]

theorem decode_tableWord {n w : Nat} {i : Instr} (h : decodeTableWord n w = some i) : decode (tableWord n w) = .ok i := by
  unfold decodeTableWord at h
  split at h
  · cases hd : decode (tableWord n w) with
    | error e => rw [hd] at h; cases h
    | ok j => rw [hd] at h; cases h; rfl
  · cases h

/-- The step on the state that `withFetchWord` prepares consumes the word put there and nothing else (log entry 15). -/
theorem step_withFetchWord (s : State) (n w : Nat) : step (s.withFetchWord n w) = runWord (tableWord n w) s :=
  step_of_word (s := s.withFetchWord n w) rfl

/-- Settles O5: the step consumes the word, and a word that decodes runs its command. -/
theorem stepRunsTheDecodedCommand : Obligations.StepRunsTheDecodedCommand :=
  ⟨fun _ _ _ _ hcmd hd _ => (step_of_word hcmd).trans (runWord_of_decode hd _),
    fun s n w _ hd => (step_withFetchWord s n w).trans (runWord_of_decode (decode_tableWord hd) s)⟩

/-! ### The assembler -/

/-- The word of SYM as a number: 0x0200 plus the symbol (R47). -/
theorem encode_sym_eq_add (b : Byte) : encode (.sym b) = 0x0200 + b.setWidth 16 := by
  have hb := b.isLt
  have hnum : (encode (.sym b)).toNat = 2 * 256 + b.toNat := by
    rw [encode, BitVec.toNat_append, ← Nat.shiftLeft_add_eq_or_of_lt hb, Nat.shiftLeft_eq]; rfl
  apply BitVec.eq_of_toNat_eq
  rw [hnum, BitVec.toNat_add, BitVec.toNat_setWidth]
  change _ = (512 + b.toNat % 2 ^ 16) % 2 ^ 16
  omega

/-- The words of a COMPRESS line (R53). -/
theorem compressStream_eq (x : List Byte) : compressStream x =
    .word 0x0100 :: (x.map (fun b => HostEvent.word (0x0200 + b.setWidth 16)) ++ [.word 0x0300]) := by
  simp only [compressStream, streamOf, compressExpansion, List.map_cons, List.map_append, List.map_map, List.map_nil]
  congr 2
  exact List.map_congr_left fun b _ => congrArg HostEvent.word (encode_sym_eq_add b)

/-- Settles O60: COMPRESS by `compressStream_eq`, the sample lines by reading them. -/
theorem assemblerGivesTheWords : Obligations.AssemblerGivesTheWords :=
  ⟨compressStream_eq, by decide, by decide, by decide, by decide, by decide, by decide, by decide⟩

end Sys2Proof.Machine
end

section
/-! PROOFS. The invariants every step keeps: that of an open call, that of phase OPEN, and the values STATUS can show
(R15 to R19, R23 to R26). -/

namespace Sys2Proof.Machine

/-! ### One step -/

/-- What does not speak of the stream, holds after the reset and after an illegal word, and is kept by every command, is kept
by every step that answers a next state. -/
theorem step_keeps {P : State → Prop} (hcmd : ∀ es s, P s → P (setCmd es s)) (hreset : ∀ s, P (hardwareReset s))
    (hillegal : ∀ s, P s → P (raiseError .illegalCommand s)) (heffect : ∀ i s t, CommandEffect i s t → P s → P t)
    {s t : State} (h : step s = .next t) (hs : P s) : P t := by
  obtain ⟨-, hq⟩ | ⟨rest, -, hq⟩ | ⟨w, rest, -, hq⟩ := step_cases s <;> rw [hq] at h
  · cases h; exact hs
  · cases h; exact hreset _
  · have hrest := hcmd rest s hs
    obtain ⟨-, rfl⟩ | ⟨-, -, rfl⟩ | ⟨-, i, -, he⟩ := runWord_cases h
    · exact hrest
    · exact hillegal _ hrest
    · exact heffect i _ _ he hrest

/-! ### The invariant of an open call -/

/-- Settles O48: no event stops a state that meets the invariant, and the next state meets it. -/
theorem stepKeepsTheCallInvariant : Obligations.StepKeepsTheCallInvariant := fun _ hs => by
  obtain ⟨t, hstep⟩ := hs.exists_step_next
  exact ⟨t, hstep, step_keeps_callInvariant hstep hs⟩

/-- Settles O49: a reset leaves phase IDLE, in which no call is open. -/
theorem resetMeetsTheCallInvariant : Obligations.ResetMeetsTheCallInvariant :=
  ⟨callInvariant_of_closed (.inl rfl), fun _ => callInvariant_of_closed (.inl rfl)⟩

/-! ### Phase OPEN -/

/-- In phase OPEN the block is as START left it. -/
def FreshWhenOpened (s : State) : Prop :=
  s.phase = .opened → s.out = [] ∧ s.err = .noError ∧ s.done = false ∧ s.low = 0 ∧ s.range = 0xFFFFFFFF ∧
    ∀ i : Fin 257, (memRead i s).toNat = i.val

theorem freshWhenOpened_of_ne {s : State} (h : s.phase ≠ .opened) : FreshWhenOpened s :=
  fun hp => absurd hp h

/-- START is the only command that leaves phase OPEN. -/
theorem CommandEffect.keeps_freshWhenOpened {i : Instr} {s t : State} (h : CommandEffect i s t)
    (hs : FreshWhenOpened s) : FreshWhenOpened t := by
  cases h with
  | ignored => exact hs
  | started => exact fun _ => ⟨rfl, rfl, rfl, rfl, rfl, tableInit_toNat⟩
  | coded => exact freshWhenOpened_of_ne (by simp)
  | emptyCall | finished | misplaced => exact freshWhenOpened_of_ne nofun

/-- Settles O52: phase OPEN is reached by START alone, which leaves the values. -/
theorem openPhaseIsFresh : Obligations.OpenPhaseIsFresh :=
  ⟨freshWhenOpened_of_ne nofun, fun _ _ hs hstep => step_keeps (P := FreshWhenOpened) (fun _ _ h => h)
    (fun _ => freshWhenOpened_of_ne nofun) (fun _ _ => freshWhenOpened_of_ne nofun)
    (fun _ _ _ he => he.keeps_freshWhenOpened) hstep hs⟩

/-! ### STATUS -/

/-- The nine values of spec/95_test_vectors.md section 2.9. -/
def statusValues : List (BitVec 8) :=
  [0x00, 0x01, 0x02, 0x10, 0x14, 0x0B, 0x0F, 0x1B, 0x1F]

/-- What ERR and DONE can be in each phase: the nine values by their fields. -/
def statusObservable (p : Phase) (e : ErrCode) (d : Bool) : Bool :=
  match p with
  | .idle => e == .noError || (e == .emptyInput && d)
  | .opened => e == .noError && !d
  | .coding => e == .noError && !d
  | .fault => e == .illegalCommand || e == .badSequence

theorem status_mem_statusValues_iff (s : State) :
    status s ∈ statusValues ↔ statusObservable s.phase s.err s.done = true := by
  unfold status
  cases s.phase <;> cases s.err <;> cases s.done <;> decide

/-- In an open call no error is shown and DONE is 0. -/
theorem statusObservable_of_callOpen {s : State} (h : callOpen s) (hs : statusObservable s.phase s.err s.done = true) :
    s.err = .noError ∧ s.done = false := by
  rcases h with h | h <;> simpa [statusObservable, h] using hs

theorem CommandEffect.keeps_statusObservable {i : Instr} {s t : State} (h : CommandEffect i s t)
    (hs : statusObservable s.phase s.err s.done = true) : statusObservable t.phase t.err t.done = true := by
  cases h with
  | ignored => exact hs
  | coded hp =>
    obtain ⟨he, hd⟩ := statusObservable_of_callOpen hp hs
    rw [codeWithUnit_phase, codeWithUnit_err, codeWithUnit_done, he, hd]; rfl
  | finished hp =>
    obtain ⟨he, -⟩ := statusObservable_of_callOpen (.inr hp) hs
    change statusObservable .idle s.err true = true
    rw [he]; rfl
  | started | emptyCall | misplaced => rfl

/-- The fields of STATUS from its least significant bit up (R19). -/
theorem status_fields (s : State) :
    (status s).extractLsb' 0 2 = phaseCode s.phase ∧ (status s).extractLsb' 2 2 = errCode s.err ∧
    (status s).extractLsb' 4 1 = BitVec.ofBool s.done ∧ (status s).extractLsb' 5 3 = (0 : BitVec 3) := by
  unfold status
  cases s.phase <;> cases s.err <;> cases s.done <;> decide

/-- Settles O53: the nine values by their fields, which every command keeps. -/
theorem statusShowsNineValues : Obligations.StatusShowsNineValues := by
  refine ⟨status_fields, (status_mem_statusValues_iff State.reset).2 rfl, fun s t hs hstep => ?_⟩
  refine (status_mem_statusValues_iff t).2 ?_
  exact step_keeps (P := fun u => statusObservable u.phase u.err u.done = true) (fun _ _ h => h) (fun _ => rfl)
    (fun _ _ => rfl) (fun _ _ _ he => he.keeps_statusObservable) hstep ((status_mem_statusValues_iff s).1 hs)

end Sys2Proof.Machine
end

section
/-! PROOFS. The frames of the three commands, by the cases of their effect, and the SYM with a zero unit (R22, R70, R85 to
R87). -/

namespace Sys2Proof.Machine

/-! ### The run's own two items -/

/-- A command does not read the stream (R43). -/
theorem exec_setCmd {i : Instr} {s t : State} (h : exec i s = .next t) (es : List HostEvent) :
    exec i (setCmd es s) = .next (setCmd es t) := by
  have hevent : runEvent (.word (encode i)) s = .next t := (runWord_encode i s).trans h
  obtain ⟨-, hany⟩ := runEvent_setCmd hevent
  exact (runWord_encode i _).symm.trans (hany es)

/-- A command writes neither the stream nor the counter of resets (log entries 1 and 4). -/
theorem CommandEffect.run_frame {i : Instr} {s t : State} (h : CommandEffect i s t) :
    t.cmd = s.cmd ∧ t.resets = s.resets := by
  cases h with
  | coded => exact ⟨codeWithUnit_cmd _ _ _, codeWithUnit_resets _ _ _⟩
  | ignored | started | emptyCall | finished | misplaced => exact ⟨rfl, rfl⟩

/-! ### SYM -/

/-- A SYM leaves the entries up to its symbol, unless it rescales. -/
theorem tableAfterSym_of_le {b : Byte} (t : Table) {i : Fin 257} (h : i.val ≤ b.toNat) :
    entry (tableAfterSym b t) i = entry t i ∨ 8388608 < (entry t totalIndex + 1).toNat := by
  have htot : entry (tableUpdate b t) totalIndex = entry t totalIndex + 1 := tableUpdate_of_gt t b.isLt
  unfold tableAfterSym
  split
  case isTrue hlim => rw [htot] at hlim; exact .inr (BitVec.lt_def.1 hlim)
  case isFalse => exact .inl (tableUpdate_of_le t h)

/-- A SYM leaves `T[0]`, even when it rescales. -/
theorem tableAfterSym_zero (b : Byte) (t : Table) : entry (tableAfterSym b t) 0 = entry t 0 := by
  have hupd : entry (tableUpdate b t) 0 = entry t 0 := tableUpdate_of_le t (Nat.zero_le _)
  unfold tableAfterSym
  split
  · exact (tableRescale_zero _).trans hupd
  · exact hupd

theorem codeWithUnit_out (b : Byte) (unit : Word) (s : State) :
    ∃ bs, (codeWithUnit b unit s).out = s.out ++ bs ∧ bs.length ≤ 3 := by
  obtain ⟨bs, hlen, hbs⟩ := codeWithUnit_withUnread b unit s
  have hself : codeWithUnit b unit s = withUnread (s.out ++ bs) s.cmd s.resets (codeWithUnit b unit s) :=
    hbs s.out s.cmd s.resets
  exact ⟨bs, congrArg (·.out) hself, hlen⟩

/-! ### The frames -/

/-- START where it opens no call leaves everything but ERR and PHASE. -/
theorem CommandEffect.start_frame {s t : State} (h : CommandEffect .start s t) (hp : s.phase ≠ .idle) :
    t.low = s.low ∧ t.range = s.range ∧ t.tbl = s.tbl ∧ t.out = s.out ∧ t.done = s.done := by
  cases h with
  | started hi => exact absurd hi hp
  | ignored | misplaced => exact ⟨rfl, rfl, rfl, rfl, rfl⟩

/-- What SYM leaves, in every phase. -/
theorem CommandEffect.sym_frame {b : Byte} {s t : State} (h : CommandEffect (.sym b) s t) :
    t.done = s.done ∧ entry t.tbl 0 = entry s.tbl 0 ∧
    (∀ i : Fin 257, i.val ≤ b.toNat → entry t.tbl i = entry s.tbl i ∨ 8388608 < (entry s.tbl totalIndex + 1).toNat) ∧
    (s.phase ≠ .idle → t.err = s.err) ∧ (∃ bs, t.out = s.out ++ bs ∧ bs.length ≤ 3) ∧
    (¬ callOpen s → t.low = s.low ∧ t.range = s.range ∧ t.tbl = s.tbl ∧ t.out = s.out) := by
  have hnone : ∃ bs, s.out = s.out ++ bs ∧ bs.length ≤ 3 := ⟨[], (List.append_nil _).symm, Nat.zero_le 3⟩
  cases h with
  | ignored => exact ⟨rfl, rfl, fun _ _ => .inl rfl, fun _ => rfl, hnone, fun _ => ⟨rfl, rfl, rfl, rfl⟩⟩
  | coded ho =>
    rw [codeWithUnit_tbl]
    exact ⟨codeWithUnit_done _ _ _, tableAfterSym_zero b s.tbl, fun _ => tableAfterSym_of_le s.tbl,
      fun _ => codeWithUnit_err _ _ _, codeWithUnit_out _ _ _, fun hc => absurd ho hc⟩
  | misplaced hp =>
    obtain ⟨hi, -⟩ | ⟨-, hp⟩ := hp
    · cases hi
    · exact ⟨rfl, rfl, fun _ _ => .inl rfl, fun hi => absurd hp hi, hnone, fun _ => ⟨rfl, rfl, rfl, rfl⟩⟩

/-- What FINISH leaves, in every phase. -/
theorem CommandEffect.finish_frame {s t : State} (h : CommandEffect .finish s t) :
    t.low = s.low ∧ t.range = s.range ∧ t.tbl = s.tbl ∧ (s.phase = .coding → t.err = s.err) ∧
    (s.phase ≠ .coding → t.out = s.out) ∧ (¬ callOpen s → t.done = s.done) := by
  cases h with
  | ignored => exact ⟨rfl, rfl, rfl, fun _ => rfl, fun _ => rfl, fun _ => rfl⟩
  | emptyCall hp => exact ⟨rfl, rfl, rfl, fun hc => (nomatch hp.symm.trans hc), fun _ => rfl, fun hc => absurd (.inl hp) hc⟩
  | finished hp => exact ⟨rfl, rfl, rfl, fun _ => rfl, fun hc => absurd hp hc, fun hc => absurd (.inr hp) hc⟩
  | misplaced hp =>
    obtain ⟨hi, -⟩ | ⟨-, hp⟩ := hp
    · cases hi
    · exact ⟨rfl, rfl, rfl, fun hc => (nomatch hp.symm.trans hc), fun _ => rfl, fun _ => rfl⟩

/-- Settles O24: each frame by the cases of the command's effect; `exec_setCmd` and `exec_setResets` for the last clause. -/
theorem commandFrames : Obligations.CommandFrames := by
  refine fun s t => ⟨fun h => ?start, fun b h => ?sym, fun h => ?finish,
    fun i h es n => exec_setResets (exec_setCmd h es) n⟩
  case start =>
    have heffect := commandEffect_of_exec h
    obtain ⟨hcmd, hresets⟩ := heffect.run_frame
    exact ⟨hcmd, hresets, heffect.start_frame⟩
  case sym =>
    have heffect := commandEffect_of_exec h
    obtain ⟨hcmd, hresets⟩ := heffect.run_frame
    obtain ⟨hdone, hrest⟩ := heffect.sym_frame
    exact ⟨hdone, hcmd, hresets, hrest⟩
  case finish =>
    have heffect := commandEffect_of_exec h
    obtain ⟨hcmd, hresets⟩ := heffect.run_frame
    obtain ⟨hlow, hrange, htbl, hrest⟩ := heffect.finish_frame
    exact ⟨hlow, hrange, htbl, hcmd, hresets, hrest⟩

/-! ### The zero unit -/

theorem unitOf_eq_zero {s : State} (h : s.range < memRead totalIndex s) : unitOf s = 0 :=
  BitVec.eq_of_toNat_eq ((BitVec.toNat_udiv ..).trans (Nat.div_eq_of_lt (BitVec.lt_def.1 h)))

/-- With the unit 0, NARROW leaves LOW and empties the interval, whatever the symbol (R70). -/
theorem narrowed_of_unit_zero (b : Byte) {s : State} (h : unitOf s = 0) : narrowed b s = setRange 0 s := by
  rw [narrowed, h]
  simp [narrow, add32, mul32]

/-- Settles O39: the unit is 0, so RENORM starts from RANGE = 0, the last row of R75. -/
theorem zeroUnitEmitsThreeBytesOfLow : Obligations.ZeroUnitEmitsThreeBytesOfLow := by
  intro b s ho hlt
  have hunit := unitOf_eq_zero hlt
  have hz : memRead totalIndex s ≠ 0 := fun h => BitVec.not_lt_zero (h ▸ hlt)
  obtain ⟨hout, hlow, hrange⟩ := codeWithUnit_interval b s
  rw [narrowed_of_unit_zero b hunit] at hout hlow hrange
  obtain ⟨-, -, -, hzero, -⟩ := renormIterationTable (setRange 0 s)
  obtain ⟨hrout, hrlow, hrrange⟩ := hzero rfl
  have hexec : exec (.sym b) s = .next (codeWithUnit b (unitOf s) s) := (CommandEffect.coded ho hz).exec_eq
  refine ⟨(divide_of_ne hz s).trans (congrArg some hunit), _, hexec, hout.trans hrout, hlow.trans hrlow, ?range,
    codeWithUnit_err _ _ _, codeWithUnit_done _ _ _, codeWithUnit_phase _ _ _, ?tbl⟩
  case range => exact hrange.trans (BitVec.eq_of_toNat_eq hrrange)
  case tbl => rw [codeWithUnit_tbl, tableAfterSym_eq_ite_rescaleCheck]

end Sys2Proof.Machine
end

section
/-! PROOFS. Several instances side by side: a step of one leaves the others, so a schedule takes each where its own steps
take it (R41, R109). -/

namespace Sys2Proof.Machine

theorem stepInstance_eq_some_iff {k : Nat} {bank bank' : List State} :
    stepInstance k bank = some bank' ↔ ∃ s t, bank[k]? = some s ∧ step s = .next t ∧ bank' = bank.set k t := by
  unfold stepInstance
  cases bank[k]? with
  | none => simp
  | some s => cases hstep : step s <;> simp [hstep, eq_comm]

theorem runSchedule_cons_eq_some {k : Nat} {ks : List Nat} {bank bank' : List State} :
    runSchedule (k :: ks) bank = some bank' ↔ ∃ mid, stepInstance k bank = some mid ∧ runSchedule ks mid = some bank' := by
  rw [runSchedule]
  cases stepInstance k bank <;> simp

theorem runSteps_succ_of_next {s u : State} (h : step s = .next u) (n : Nat) : runSteps (n + 1) s = runSteps n u := by
  rw [runSteps, h]

/-- After the first step of a schedule, that of instance `k`, every instance is where its own steps so far take it. -/
theorem stepInstance_getElem? {k j : Nat} {bank mid : List State} {s : State} (h : stepInstance k bank = some mid)
    (hs : bank[j]? = some s) (ks : List Nat) :
    ∃ u, mid[j]? = some u ∧ runSteps ((k :: ks).count j) s = runSteps (ks.count j) u := by
  obtain ⟨r, t, hr, hstep, rfl⟩ := stepInstance_eq_some_iff.1 h
  by_cases hj : k = j
  · subst hj
    obtain rfl := Option.some.inj (hr.symm.trans hs)
    obtain ⟨hlt, -⟩ := List.getElem?_eq_some_iff.1 hs
    exact ⟨t, List.getElem?_set_self hlt, by rw [List.count_cons_self, runSteps_succ_of_next hstep]⟩
  · exact ⟨s, (List.getElem?_set_ne hj).trans hs, by rw [List.count_cons_of_ne hj]⟩

/-- Settles O59: by induction on the schedule; its first step moves one instance and leaves the others. -/
theorem instancesAreIsolated : Obligations.InstancesAreIsolated := by
  intro ks bank bank' h
  induction ks generalizing bank with
  | nil => cases h; exact ⟨rfl, fun _ s hs => ⟨s, hs, rfl⟩⟩
  | cons k ks ih =>
    obtain ⟨mid, hfirst, hrest⟩ := runSchedule_cons_eq_some.1 h
    obtain ⟨hlen, hall⟩ := ih mid hrest
    refine ⟨?_, fun j s hs => ?_⟩
    · obtain ⟨r, t, -, -, rfl⟩ := stepInstance_eq_some_iff.1 hfirst
      rw [hlen, List.length_set]
    · obtain ⟨u, hu, hruns⟩ := stepInstance_getElem? hfirst hs ks
      obtain ⟨t, ht, hrun⟩ := hall j u hu
      exact ⟨t, ht, hruns.trans hrun⟩

end Sys2Proof.Machine
end
